-- ==== Sys2Proof/Word.lean ====
section
/-! DEFINITION. The widths the spec fixes (R4, R37, R38). All values are unsigned; nothing in the block is signed (00_scope.md section 7). -/

namespace Sys2Proof

/-- `u8`: one input element, or a table index (`DATA_W` of R4). -/
abbrev Byte := BitVec 8

/-- `u16`: polynomial, table entry, CRC register, initial value and result (`CRC_W` of R4). -/
abbrev Word := BitVec 16

/-- `u20`: a command word `{op, arg}` (R37). -/
abbrev CmdWord := BitVec 20

/-- `u19`: a response word `{status, data}` (R38). -/
abbrev RspWord := BitVec 19

end Sys2Proof
end

