-- ==== Sys2Proof/Machine/Operands.lean ====
section
/-! DEFINITION. The fields of a command word (R37, R41 to R46) and the byte selections of the data path (R27, R66). Operands are taken from
`arg` as they stand: no sign extension, no scaling (R46). -/

namespace Sys2Proof.Machine

/-- `cmd[19:16]` (R37). -/
def opField (w : CmdWord) : BitVec 4 := w.extractLsb' 16 4

/-- `cmd[15:0]`, the whole argument: `p` of GEN and `v` of INIT (R41, R43). -/
def argField (w : CmdWord) : Word := w.extractLsb' 0 16

/-- `arg[7:0]`: `i` of RDTAB and `b` of UPDATE (R42, R44). -/
def argLow (w : CmdWord) : Byte := w.extractLsb' 0 8

/-- `arg[15:8]`: reserved in RDTAB and UPDATE (R48). -/
def argHigh (w : CmdWord) : Byte := w.extractLsb' 8 8

/-- `arg[0]`: `n` of FINAL (R45). -/
def argFlag (w : CmdWord) : Bool := w.getLsbD 0

/-- `arg[15:1]`: reserved in FINAL (R48). -/
def argAboveFlag (w : CmdWord) : BitVec 15 := w.extractLsb' 1 15

/-- `c[15:8]` (R66). -/
def hiByte (c : Word) : Byte := c.extractLsb' 8 8

/-- `c[7:0]` (R66). -/
def loByte (c : Word) : Byte := c.extractLsb' 0 8

/-- `{b, 0x00}`: a byte in bits 15:8 with zeros below (R55, R66). -/
def atHigh (b : Byte) : Word := b ++ (0 : Byte)

/-- The computed table index of UPDATE, `CRC[15:8] xor b` (R25, R66; stage S1 of R74). -/
def tableIndex (c : Word) (b : Byte) : Byte := hiByte c ^^^ b

end Sys2Proof.Machine
end

