-- ==== Sys2Proof/Config.lean ====
section
/-! DEFINITION. The fixed counts (R4), the caller's defaults (R5, not hardware state), the host's chunk size (R6), and the free values: what the
spec leaves without a value is an opaque constant here, so that no proof can know it. -/

namespace Sys2Proof

/-- `TABLE_DEPTH` (R4): the number of table entries. -/
abbrev Config.tableDepth : Nat := 256

/-- `ROUNDS` (R4): rounds of conditional shift-and-xor per entry. -/
abbrev Config.roundsPerEntry : Nat := 8

/-- `POLY_DEFAULT` (R5): what the notation supplies for an omitted polynomial. -/
def Config.polyDefault : Word := 0x1021

/-- `INIT_DEFAULT` (R5): what the notation supplies for an omitted initial value. -/
def Config.initDefault : Word := 0xFFFF

/-- `INVERT_DEFAULT` (R5): what the notation supplies for an omitted invert flag. -/
def Config.invertDefault : Bool := false

/-- `CHUNK_BYTES` (R6): how many bytes the host's file wrapper reads at a time. No hardware effect (R78). -/
def Config.chunkBytes : Nat := 1024

/-- FREE VALUE (DESIGN CHOICE, log entry 7): what a read of a table entry that holds no value gives. The spec gives no value (R13, U5),
and no run from reset reads one (R16). -/
opaque Config.unspecifiedEntry : Byte → Word

/-- FREE VALUE (DESIGN CHOICE, log entry 8): what a read of `CRC` gives when it holds no value. The spec gives no value (R15, U5), and
no run from reset reads one. -/
opaque Config.unspecifiedCrc : Word

/-- FREE VALUE (DESIGN CHOICE, log entry 13): how many cycles beyond the first the response of the n-th accepted word takes. The spec leaves
every latency open: finite, at least 1, possibly different each time (R6, R110). Only the cycle-level layer reads it. -/
opaque Config.extraLatency : Nat → Nat

/-- FREE VALUE (DESIGN CHOICE, log entry 14): how many internal steps the n-th accepted word does in the cycle that has `left` cycles after it before
its last. The spec leaves the sequencing open (R59, R74). Only the cycle-level layer reads it. -/
opaque Config.stepsInCycle : (n left : Nat) → Nat

end Sys2Proof
end

