-- ==== Sys2Proof/Syntax.lean ====
section
/-! DEFINITION. The commands (R40, R49), the reasons a word is no command (R84), and the lines of the spec's notation (R50 to R52). -/

namespace Sys2Proof

/-- The five commands, one constructor per row of spec/opcode_table.json. The operands have exactly the widths of R46. -/
inductive Instr where
  /-- `GEN p` (R41, R56): generate the table of polynomial `p`. -/
  | gen (p : Word)
  /-- `RDTAB i` (R42, R57): read table entry `i`. -/
  | rdtab (i : Byte)
  /-- `INIT v` (R43, R68): begin a computation with initial value `v`. -/
  | init (v : Word)
  /-- `UPDATE b` (R44, R69): fold byte `b` into the register. -/
  | update (b : Byte)
  /-- `FINAL n` (R45, R70): deliver the result, inverted when `n` is set, and end the computation. -/
  | final (n : Bool)
  deriving DecidableEq, Repr

/-- Why a word is no command (R84). Both are answered the same way; the two names keep the reasons apart. -/
inductive Illegal where
  /-- `op` is 0x0 or 0x6 to 0xF (R47). -/
  | opcode (op : BitVec 4)
  /-- `op` is legal and a reserved argument bit is 1 (R48). -/
  | reservedBits (op : BitVec 4) (arg : Word)
  deriving DecidableEq, Repr

/-- What `decode` answers (R49): a command, or ILLEGAL. -/
inductive Decoded where
  | instr (i : Instr)
  | illegal (why : Illegal)
  deriving DecidableEq, Repr

/-- The data operand of the macros of R52: a quoted text, or a list of byte operands. -/
inductive Data where
  | text (cs : List Char)
  | bytes (bs : List Nat)
  deriving DecidableEq, Repr

/-- One line of the notation (R50 to R52), with operands as the numbers written; `none` is an omitted operand. -/
inductive Line where
  /-- An empty line or a comment. -/
  | blank
  | gen (p : Option Nat)
  | rdtab (i : Nat)
  | init (v : Option Nat)
  | update (b : Nat)
  | final (n : Option Nat)
  /-- `RAW w`: the word itself; the only way to write an illegal word. -/
  | raw (w : Nat)
  /-- The macro `UPDATES`. -/
  | updates (d : Data)
  /-- The macro `COMPUTE data [, v [, n]]`. -/
  | compute (d : Data) (v n : Option Nat)
  deriving DecidableEq, Repr

end Sys2Proof
end

