-- ==== Sys2Proof/Decode.lean ====
section
/-! DEFINITION. The decoder (R49), total on all 2^20 words, and the encoder written from the same patterns (R41 to R45). -/

namespace Sys2Proof

open Sys2Proof.Machine

/-- A legal `op` whose reserved argument bits are checked (R48): the command if they are zero, ILLEGAL if not. -/
def whenZero (reservedZero : Bool) (w : CmdWord) (i : Instr) : Decoded :=
  if reservedZero then .instr i else .illegal (.reservedBits (opField w) (argField w))

/-- `decode` of R49. -/
def decode (w : CmdWord) : Decoded :=
  if opField w = 1 then .instr (.gen (argField w))
  else if opField w = 2 then whenZero (argHigh w == 0) w (.rdtab (argLow w))
  else if opField w = 3 then .instr (.init (argField w))
  else if opField w = 4 then whenZero (argHigh w == 0) w (.update (argLow w))
  else if opField w = 5 then whenZero (argAboveFlag w == 0) w (.final (argFlag w))
  else .illegal (.opcode (opField w))

/-- The `op` of a command (R40). -/
def opcodeOf : Instr → BitVec 4
  | .gen _ => 1
  | .rdtab _ => 2
  | .init _ => 3
  | .update _ => 4
  | .final _ => 5

/-- The `arg` of a command, reserved bits zero (R41 to R45). -/
def argumentOf : Instr → Word
  | .gen p => p
  | .rdtab i => (0 : Byte) ++ i
  | .init v => v
  | .update b => (0 : Byte) ++ b
  | .final n => if n then 1 else 0

/-- The word of a command, `{op, arg}` (R37). -/
def encode (i : Instr) : CmdWord := opcodeOf i ++ argumentOf i

/-- The command a decoded word stands for, if any. -/
def Decoded.toInstr? : Decoded → Option Instr
  | .instr i => some i
  | .illegal _ => none

/-- The instruction read from the table's numbering of bits. A command is one 20-bit word (R37), so the number IS the word; a number of
2^20 or more is no command word and none is read (log entry 11). -/
def decodeTableWord (nbits w : Nat) : Option Instr :=
  if w % 2 ^ nbits < 1048576 then (decode (BitVec.ofNat 20 (w % 2 ^ nbits))).toInstr? else none

end Sys2Proof
end

