-- ==== Sys2Proof/Machine/State.lean ====
section
/-! DEFINITION. The machine's state (R10) with its port at transaction level (R7, R39), the statuses and responses (R38, R83), and reset (R22). -/

namespace Sys2Proof.Machine

/-- The five statuses the block produces (R83); codes 5, 6 and 7 are never produced. -/
inductive Status where
  /-- The command executed. -/
  | ok
  /-- The word is not a command (R84). -/
  | errIllegal
  /-- The command needs a table and `TVALID = 0` (R85). -/
  | errNoTable
  /-- The command needs a computation in progress and `ACTIVE = 0` (R86). -/
  | errIdle
  /-- The command would replace the table and `ACTIVE = 1` (R87). -/
  | errActive
  deriving DecidableEq, Repr

/-- A response `{status, data}` (R38). -/
structure Response where
  status : Status
  data : Word
  deriving DecidableEq, Repr

/-- What the host does next (R8, R97): offer a command word, or assert reset. Reset in place of a command also stands for a command
abandoned by reset: the host "may replace any command of its sequence by `reset`" (R102). -/
inductive HostEvent where
  | command (w : CmdWord)
  | reset
  deriving DecidableEq, Repr

/-- The table memory (R11, R23): pairs of index and whole 16-bit entry, indices strictly rising (`Memory.wf`). An index not listed holds no
value (R13). The entry is the smallest unit the spec addresses (R23), so a cell holds 16 bits (log entry 6). -/
abbrev Memory := List (Nat × Word)

/-- The state: R10's four elements and the two ends of the port. -/
structure State where
  /-- `TABLE` (R11). -/
  table : Memory
  /-- `TVALID` (R13): a complete generated table is present. -/
  tvalid : Bool
  /-- `CRC` (R14): the running checksum; `none` is the spec's own "holds no value" (R10, R15). -/
  crc : Option Word
  /-- `ACTIVE` (R15): a computation is in progress. -/
  active : Bool
  /-- What the host does next, first first (R7, R39: the list of commands in). -/
  events : List HostEvent
  /-- The responses delivered so far, oldest first (R7, R39: the list of responses out). -/
  responses : List Response
  deriving DecidableEq, Repr

/-- The reasons a step could stop the machine. There is none: every command, legal or not, in every state, gets a response (R99), so no
constructor exists and the type says so. -/
inductive Fault where
  deriving DecidableEq, Repr

/-- The reasons the model gives an instruction no meaning. -/
inductive Refusal where
  /-- An instruction whose arm has no meaning yet; raised by exec's arm alone. Safe. No arm raises it: all five commands are modelled. -/
  | notModelled (mnemonic : String)
  deriving DecidableEq, Repr

/-- The machine right after reset (R22): both flags 0, `TABLE` and `CRC` holding no value; the host has offered nothing and nothing has been answered
(log entries 2 and 3). -/
def State.reset : State :=
  { table := [], tvalid := false, crc := none, active := false, events := [], responses := [] }

end Sys2Proof.Machine
end

