-- ==== Sys2Proof/Machine/Ops.lean ====
section
/-! DEFINITION. The named operations: the table memory, the reads and writes of R10's four elements, delivering a response (`respond`), refusing a
command (`raise`, this block's only exception, R88), the reset event (R100, R101), and the two ends of the port. -/

namespace Sys2Proof.Machine

/-! The table memory (R23, R24). -/

/-- The entry at an index, or none where the memory holds no value. -/
def Memory.read : Memory → Nat → Option Word
  | [], _ => none
  | c :: rest, a => bif a.beq c.1 then some c.2 else Memory.read rest a

/-- Write one whole entry, keeping the indices strictly rising. -/
def Memory.write : Memory → Nat → Word → Memory
  | [], a, v => [(a, v)]
  | c :: rest, a, v =>
    bif a.blt c.1 then (a, v) :: c :: rest
    else bif a.beq c.1 then (a, v) :: rest
    else c :: Memory.write rest a v

/-- Write `f b` at `b` for each index of the list, in the list's order. -/
@[irreducible] def Memory.writeAll (f : Nat → Word) : List Nat → Memory → Memory
  | [], m => m
  | b :: bs, m => Memory.writeAll f bs (m.write b (f b))

/-- Indices strictly rising, from `lo` on, and all in the index space 0..255 (R23). -/
def Memory.wfFrom : Nat → Memory → Bool
  | _, [] => true
  | lo, c :: rest => decide (lo ≤ c.1) && decide (c.1 < Config.tableDepth) && Memory.wfFrom (c.1 + 1) rest

/-- The canonical form: equal tables are equal lists. -/
def Memory.wf (m : Memory) : Bool := Memory.wfFrom 0 m

/-! Reading the state. -/

/-- `TABLE[i]` (R24). An entry that holds no value reads as a free value (log entry 7). -/
def State.lookup (s : State) (i : Byte) : Word :=
  (s.table.read i.toNat).getD (Config.unspecifiedEntry i)

/-- `CRC` (R14). A register that holds no value reads as a free value (log entry 8). -/
def State.crcValue (s : State) : Word := s.crc.getD Config.unspecifiedCrc

/-! Writing the state. -/

/-- `TABLE[b] <- f b` for each index of the list in order (R56). -/
def State.writeEntries (s : State) (f : Nat → Word) (bs : List Nat) : State :=
  { s with table := s.table.writeAll f bs }

/-- `TVALID <- v`. -/
def State.setTvalid (s : State) (v : Bool) : State := { s with tvalid := v }

/-- `CRC <- v`. -/
def State.setCrc (s : State) (v : Word) : State := { s with crc := some v }

/-- `CRC` is discarded: it holds no value from now on (R15, R70). -/
def State.dropCrc (s : State) : State := { s with crc := none }

/-- `ACTIVE <- v`. -/
def State.setActive (s : State) (v : Bool) : State := { s with active := v }

/-! The port. -/

/-- `respond(status, data)`: deliver the response and end the command (R38). -/
def State.respond (s : State) (status : Status) (data : Word) : State :=
  { s with responses := s.responses ++ [{ status := status, data := data }] }

/-- `respond(OK, 0x0000)`: the answer of a command that carries no value (R38, U14). -/
def State.respondDone (s : State) : State := s.respond .ok 0

/-- `raise E` (R88): the response `{E, 0x0000}`, and no state written. This is the shared refusal of every error; there is nothing to save and
nothing to return from (R90). -/
def State.raise (s : State) (e : Status) : State := s.respond e 0

/-- The answer to a word that is no command (R47, R48, R84). -/
def State.refuseIllegal (s : State) : State := s.raise .errIllegal

/-- The reset event (R100, R101): the four elements take their reset values whatever they were; no response is delivered. -/
def State.takeReset (s : State) : State :=
  { State.reset with events := s.events, responses := s.responses }

/-- Take the host's next event off the port; none when the host offers nothing. -/
def State.nextEvent (s : State) : Option (HostEvent × State) :=
  match s.events with
  | [] => none
  | e :: rest => some (e, { s with events := rest })

/-- The host offers a command word ahead of whatever it was going to do. A number of 2^20 or more is no word of the port. -/
def State.offer (s : State) (w : Nat) : State :=
  if w < 1048576 then { s with events := .command (BitVec.ofNat 20 w) :: s.events } else s

/-! The response word (R38, R83). -/

/-- The code of a status (R83). -/
def Status.code : Status → BitVec 3
  | .ok => 0
  | .errIllegal => 1
  | .errNoTable => 2
  | .errIdle => 3
  | .errActive => 4

/-- The 19-bit word `{status, data}` (R38). -/
def Response.word (r : Response) : RspWord := r.status.code ++ r.data

end Sys2Proof.Machine
end

