-- ==== Sys2Proof/Machine/Flags.lean ====
section
/-! DEFINITION. The preconditions on the two flags (R85 to R87, R89). Each command has exactly one; it is tested once, after decode, and answered
with an error, never waited on (R99). -/

namespace Sys2Proof.Machine

/-- Go on with `k` when `TVALID = 1`; else `raise ERR_NOTABLE` (R85: RDTAB, INIT). -/
def State.needTable (s : State) (k : State → State) : State :=
  if s.tvalid then k s else s.raise .errNoTable

/-- Go on with `k` when `ACTIVE = 1`; else `raise ERR_IDLE` (R86: UPDATE, FINAL). -/
def State.needActive (s : State) (k : State → State) : State :=
  if s.active then k s else s.raise .errIdle

/-- Go on with `k` when `ACTIVE = 0`; else `raise ERR_ACTIVE` (R87: GEN). -/
def State.needIdle (s : State) (k : State → State) : State :=
  if s.active then s.raise .errActive else k s

end Sys2Proof.Machine
end

