-- ==== Sys2Proof/Machine/Generator.lean ====
section
/-! DEFINITION. The Table Generator: the functions of R54 and R55, and the commands GEN (R56) and RDTAB (R57). -/

namespace Sys2Proof.Machine

/-- `round(w, p)` (R54): the bit tested is bit 15 of `w` before the shift; the shift drops it and brings a 0 into bit 0. -/
def crcRound (w p : Word) : Word :=
  if w.getLsbD 15 then (w <<< 1) ^^^ p else w <<< 1

/-- `k` rounds in a row. -/
def crcRounds : Nat → Word → Word → Word
  | 0, w, _ => w
  | k + 1, w, p => crcRounds k (crcRound w p) p

/-- `entry(b, p)` (R55): eight rounds started from `{b, 0x00}`. -/
def tableEntry (b : Byte) (p : Word) : Word :=
  crcRounds Config.roundsPerEntry (atHigh b) p

/-- `gen_table(p)` (R55). -/
def genTable (p : Word) : Byte → Word := fun b => tableEntry b p

/-- The loop of R56: `TABLE[b] <- entry(b, p)` for b = 0 to 255 in ascending order. -/
def State.fillTable (p : Word) (s : State) : State :=
  s.writeEntries (fun b => tableEntry (BitVec.ofNat 8 b) p) (List.range Config.tableDepth)

/-- GEN (R56). -/
def execGen (p : Word) (s : State) : Host.Outcome State Fault Refusal :=
  .next (s.needIdle fun s => ((s.fillTable p).setTvalid true).respondDone)

/-- RDTAB (R57): a pure read, in any state of the engine. -/
def execRdtab (i : Byte) (s : State) : Host.Outcome State Fault Refusal :=
  .next (s.needTable fun s => s.respond .ok (s.lookup i))

end Sys2Proof.Machine
end

