-- ==== Sys2Proof/Machine/Engine.lean ====
section
/-! DEFINITION. The CRC Engine: the functions of R66 and R67, the commands INIT (R68), UPDATE (R69) and FINAL (R70), and the function they
compute together (R72). -/

namespace Sys2Proof.Machine

/-- The xor-shift of R66: `t xor {c[7:0], 0x00}` (stage S3 of R74). -/
def xorShift (t c : Word) : Word := t ^^^ atHigh (loByte c)

/-- `upd(c, b, T)` (R66): one lookup at `c[15:8] xor b`, then the xor-shift. -/
def upd (c : Word) (b : Byte) (T : Byte → Word) : Word := xorShift (T (tableIndex c b)) c

/-- `fin(c, n)` (R67): the complement when `n` is set. -/
def fin (c : Word) (n : Bool) : Word := if n then ~~~c else c

/-- The register after folding a byte sequence in order (R72: the foldl). -/
def foldBytes (T : Byte → Word) (v : Word) (d : List Byte) : Word :=
  d.foldl (fun c b => upd c b T) v

/-- `compute(d, T, v, n)` (R72). -/
def compute (d : List Byte) (T : Byte → Word) (v : Word) (n : Bool) : Word :=
  fin (foldBytes T v d) n

/-- INIT (R68): accepted while a computation is in progress too, which it abandons (R77). -/
def execInit (v : Word) (s : State) : Host.Outcome State Fault Refusal :=
  .next (s.needTable fun s => ((s.setCrc v).setActive true).respondDone)

/-- UPDATE (R69). -/
def execUpdate (b : Byte) (s : State) : Host.Outcome State Fault Refusal :=
  .next (s.needActive fun s => (s.setCrc (upd s.crcValue b s.lookup)).respondDone)

/-- FINAL (R70): the result is computed from `CRC` before it is discarded. -/
def execFinal (n : Bool) (s : State) : Host.Outcome State Fault Refusal :=
  .next (s.needActive fun s => (s.dropCrc.setActive false).respond .ok (fin s.crcValue n))

end Sys2Proof.Machine
end

