-- ==== Sys2Proof/Machine/Dispatch.lean ====
section
/-! DEFINITION. One arm per command (R40). -/

namespace Sys2Proof.Machine

def exec (i : Instr) (s : State) : Host.Outcome State Fault Refusal :=
  match i with
  | .gen p => Sys2Proof.Machine.execGen p s
  | .rdtab idx => Sys2Proof.Machine.execRdtab idx s
  | .init v => Sys2Proof.Machine.execInit v s
  | .update b => Sys2Proof.Machine.execUpdate b s
  | .final n => Sys2Proof.Machine.execFinal n s

end Sys2Proof.Machine
end

