-- ==== Sys2Proof/Machine/Accept.lean ====
section
/-! DEFINITION. What the block does with one event of the host: a command word is decoded first and then executed or refused (R49, R89), a
reset gives the reset state (R101). -/

namespace Sys2Proof.Machine

/-- One accepted command word (R7, R89): decode comes first; an illegal word is answered whatever the state. -/
def acceptWord (w : CmdWord) (s : State) : Host.Outcome State Fault Refusal :=
  match decode w with
  | .instr i => exec i s
  | .illegal _ => .next s.refuseIllegal

/-- One event of the host, `s` being the state with the event taken off the port. -/
def handleEvent (e : HostEvent) (s : State) : Host.Outcome State Fault Refusal :=
  match e with
  | .command w => acceptWord w s
  | .reset => .next s.takeReset

/-- One step: the host's next event, or, when it offers nothing, no change (log entry 1). -/
def stepEvent (s : State) : Host.Outcome State Fault Refusal :=
  match s.nextEvent with
  | none => .next s
  | some (e, s') => handleEvent e s'

end Sys2Proof.Machine
end

