-- ==== Sys2Proof/Machine/Step.lean ====
section
/-! DEFINITION. The step (R7) and where the host's next word is placed. -/

namespace Sys2Proof.Machine

/-- One transaction (R7). The block fetches nothing (R19): the next command is the one the host offers next. -/
def step (s : State) : Host.Outcome State Fault Refusal := stepEvent s

/-- `s` with the word offered next at the command port (log entry 2 says how commands come to run). Only the port's input changes. -/
def State.withFetchWord (s : State) (nbits w : Nat) : State := s.offer (w % 2 ^ nbits)

end Sys2Proof.Machine
end

