-- ==== Sys2Proof/WellFormed.lean ====
section
/-! DEFINITION. Which lines of the notation denote words (R50: "An operand out of the stated range is an error of the notation"). An `Instr`
needs no check: its operands' types are exactly the ranges of R41 to R45, so every `Instr` is well-formed. -/

namespace Sys2Proof

/-- An optional operand is in range when it is omitted or below the bound. -/
def optBelow (bound : Nat) : Option Nat → Bool
  | none => true
  | some n => decide (n < bound)

/-- A data operand (R52): ASCII characters, or at least one byte, each in 0..255. -/
def Data.wellFormed : Data → Bool
  | .text cs => cs.all fun c => decide (c.toNat < 128)
  | .bytes bs => !bs.isEmpty && bs.all fun b => decide (b < 256)

/-- The operand ranges of R50, and of R52 that `n` is written only after `v`. -/
def Line.wellFormed : Line → Bool
  | .blank => true
  | .gen p => optBelow 65536 p
  | .rdtab i => decide (i < 256)
  | .init v => optBelow 65536 v
  | .update b => decide (b < 256)
  | .final n => optBelow 2 n
  | .raw w => decide (w < 1048576)
  | .updates d => d.wellFormed
  | .compute d v n => d.wellFormed && optBelow 65536 v && optBelow 2 n && (v.isSome || n.isNone)

end Sys2Proof
end

