-- ==== Sys2Proof/Machine/Assembly.lean ====
section
/-! DEFINITION. The notation for command sequences (R50 to R52): the words a line denotes, and reading a line of text. -/

namespace Sys2Proof.Machine

/-- The numbers of a data operand, in order: a text gives each character's ASCII code (R52). -/
def dataNumbers : Data → List Nat
  | .text cs => cs.map Char.toNat
  | .bytes bs => bs

/-- `op * 65536 + operand` (R37, R50). -/
def wordOf (op operand : Nat) : CmdWord := BitVec.ofNat 20 (op * 65536 + operand)

/-- The words of a line whose operands are in range: one word a command (R50), BPD6's defaults for omitted operands (R51), the macros expanded
in order (R52). -/
def lineWords : Line → List CmdWord
  | .blank => []
  | .gen p => [wordOf 1 (p.getD Config.polyDefault.toNat)]
  | .rdtab i => [wordOf 2 i]
  | .init v => [wordOf 3 (v.getD Config.initDefault.toNat)]
  | .update b => [wordOf 4 b]
  | .final n => [wordOf 5 (n.getD Config.invertDefault.toNat)]
  | .raw w => [BitVec.ofNat 20 w]
  | .updates d => (dataNumbers d).map (wordOf 4)
  | .compute d v n =>
    wordOf 3 (v.getD Config.initDefault.toNat) :: (dataNumbers d).map (wordOf 4)
      ++ [wordOf 5 (n.getD Config.invertDefault.toNat)]

/-- The words a line denotes; a line with an operand out of range denotes none (R50). -/
def assembleLine (l : Line) : Option (List CmdWord) :=
  if l.wellFormed then some (lineWords l) else none

/-- The words of a sequence of lines, in order; none when some line denotes none. -/
def assemble : List Line → Option (List CmdWord)
  | [] => some []
  | l :: ls =>
    match assembleLine l, assemble ls with
    | some ws, some rest => some (ws ++ rest)
    | _, _ => none

/-- The response of a COMPUTE macro (R52): that of its last command if every earlier one answered OK. The rule names
no other, and the model then gives none (DESIGN CHOICE, log entry 17). -/
def macroResponse : List Response → Option Response
  | [] => none
  | [r] => some r
  | r :: rs => if r.status = .ok then macroResponse rs else none

/-! Reading a line of text (R50, R52). What the spec leaves open about spelling is in log entry 17. -/

/-- A word of a line, a quoted text, or a comma. -/
inductive Token where
  | word (cs : List Char)
  | text (cs : List Char)
  | comma
  deriving DecidableEq, Repr

/-- Where the scanner stands: between tokens, or inside one with its characters so far, last first. -/
inductive LexMode where
  | between
  | inWord (acc : List Char)
  | inText (acc : List Char)
  deriving DecidableEq, Repr

/-- Split a line into tokens. A `;` outside a text starts a comment; a text that is not closed is no line. -/
def tokens : List Char → LexMode → Option (List Token)
  | [], .between => some []
  | [], .inWord acc => some [.word acc.reverse]
  | [], .inText _ => none
  | c :: cs, .between =>
    if c = ' ' ∨ c = '\t' then tokens cs .between
    else if c = ';' then some []
    else if c = '\x22' then tokens cs (.inText [])
    else if c = ',' then (tokens cs .between).map (.comma :: ·)
    else tokens cs (.inWord [c])
  | c :: cs, .inWord acc =>
    if c = ' ' ∨ c = '\t' then (tokens cs .between).map (.word acc.reverse :: ·)
    else if c = ';' then some [.word acc.reverse]
    else if c = '\x22' then none
    else if c = ',' then (tokens cs .between).map (fun ts => .word acc.reverse :: .comma :: ts)
    else tokens cs (.inWord (c :: acc))
  | c :: cs, .inText acc =>
    if c = '\x22' then (tokens cs .between).map (.text acc.reverse :: ·)
    else tokens cs (.inText (c :: acc))

/-- The value of a hexadecimal digit. -/
def digitValue (c : Char) : Option Nat :=
  if 48 ≤ c.toNat ∧ c.toNat ≤ 57 then some (c.toNat - 48)
  else if 65 ≤ c.toNat ∧ c.toNat ≤ 70 then some (c.toNat - 55)
  else if 97 ≤ c.toNat ∧ c.toNat ≤ 102 then some (c.toNat - 87)
  else none

/-- Digits in a base, after the value so far. -/
def digits (base : Nat) : List Char → Nat → Option Nat
  | [], acc => some acc
  | c :: cs, acc =>
    match digitValue c with
    | some d => if d < base then digits base cs (acc * base + d) else none
    | none => none

/-- A number: `0x` and hexadecimal digits, or decimal digits (R50). -/
def numberOf : List Char → Option Nat
  | [] => none
  | '0' :: 'x' :: cs => if cs.isEmpty then none else digits 16 cs 0
  | cs => digits 10 cs 0

/-- Numbers up to the first token that is not a word. -/
def numbersOf : List Token → Option (List Nat × List Token)
  | .word w :: ts =>
    match numberOf w, numbersOf ts with
    | some n, some (ns, rest) => some (n :: ns, rest)
    | _, _ => none
  | ts => some ([], ts)

/-- The data operand of a macro (R52) and what follows it. -/
def dataOf : List Token → Option (Data × List Token)
  | .text cs :: ts => some (.text cs, ts)
  | ts => (numbersOf ts).map fun x => (.bytes x.1, x.2)

/-- The operands `[, v [, n]]` of COMPUTE (R52). -/
def computeTail (d : Data) : List Token → Option Line
  | [] => some (.compute d none none)
  | [.comma, .word v] => (numberOf v).map fun v => .compute d (some v) none
  | [.comma, .word v, .comma, .word n] =>
    match numberOf v, numberOf n with
    | some v, some n => some (.compute d (some v) (some n))
    | _, _ => none
  | _ => none

/-- The operands of a mnemonic: none, or one number. -/
def operandOf : List Token → Option (Option Nat)
  | [] => some none
  | [.word w] => (numberOf w).map some
  | _ => none

/-- An operand that may not be omitted. -/
def requiredOperand (ts : List Token) : Option Nat := (operandOf ts).join

/-- The line of a mnemonic and its operand tokens (R50 to R52). -/
def lineOf (m : List Char) (ts : List Token) : Option Line :=
  if m = ['G', 'E', 'N'] then (operandOf ts).map .gen
  else if m = ['R', 'D', 'T', 'A', 'B'] then (requiredOperand ts).map .rdtab
  else if m = ['I', 'N', 'I', 'T'] then (operandOf ts).map .init
  else if m = ['U', 'P', 'D', 'A', 'T', 'E'] then (requiredOperand ts).map .update
  else if m = ['F', 'I', 'N', 'A', 'L'] then (operandOf ts).map .final
  else if m = ['R', 'A', 'W'] then (requiredOperand ts).map .raw
  else if m = ['U', 'P', 'D', 'A', 'T', 'E', 'S'] then
    match dataOf ts with
    | some (d, []) => some (.updates d)
    | _ => none
  else if m = ['C', 'O', 'M', 'P', 'U', 'T', 'E'] then
    match dataOf ts with
    | some (d, rest) => computeTail d rest
    | none => none
  else none

/-- Read one line of text; `none` when it is no line of the notation. -/
def readLine (cs : List Char) : Option Line :=
  match tokens cs .between with
  | some [] => some .blank
  | some (.word m :: ts) => lineOf m ts
  | _ => none

/-! Writing a response (R50: `-> OK`, `-> OK 0x29B1`, `-> ERR_IDLE`). -/

/-- A hexadecimal digit, upper case. -/
def hexChar (d : Nat) : Char := if d < 10 then Char.ofNat (48 + d) else Char.ofNat (55 + d)

/-- A word as `0x` and four hexadecimal digits. -/
def hexWord (v : Word) : List Char :=
  ['0', 'x', hexChar (v.toNat / 4096), hexChar (v.toNat / 256 % 16), hexChar (v.toNat / 16 % 16), hexChar (v.toNat % 16)]

/-- The name of a status (R83). -/
def statusName : Status → List Char
  | .ok => ['O', 'K']
  | .errIllegal => ['E', 'R', 'R', '_', 'I', 'L', 'L', 'E', 'G', 'A', 'L']
  | .errNoTable => ['E', 'R', 'R', '_', 'N', 'O', 'T', 'A', 'B', 'L', 'E']
  | .errIdle => ['E', 'R', 'R', '_', 'I', 'D', 'L', 'E']
  | .errActive => ['E', 'R', 'R', '_', 'A', 'C', 'T', 'I', 'V', 'E']

/-- A response as text; `carriesData` says whether the command returns a value (RDTAB, FINAL). -/
def responseText (carriesData : Bool) (r : Response) : List Char :=
  ['-', '>', ' '] ++ statusName r.status
    ++ (if carriesData && r.status == .ok then ' ' :: hexWord r.data else [])

end Sys2Proof.Machine
end

