-- ==== Sys2Proof/Machine/HostFile.lean ====
section
/-! DEFINITION. What the host's file procedure sends to the block (R79). It is host software (R3): `NotFound` never reaches the block (R93). -/

namespace Sys2Proof.Machine

/-- How reading a file went: the path could not be opened; it was read to the end; or a read failed after some bytes. The bytes are in file order. -/
inductive FileRead where
  | notFound
  | complete (bytes : List Byte)
  | failed (bytes : List Byte)
  deriving DecidableEq, Repr

/-- A sequence in chunks of at most `n` bytes; the first argument bounds how many chunks are cut. -/
def chunksOf : Nat → Nat → List Byte → List (List Byte)
  | 0, _, d => if d.isEmpty then [] else [d]
  | fuel + 1, n, d => if d.isEmpty then [] else d.take n :: chunksOf fuel n (d.drop n)

/-- The sequential chunks of 1024 bytes of R79. -/
def fileChunks (d : List Byte) : List (List Byte) := chunksOf d.length Config.chunkBytes d

/-- One UPDATE per byte, chunk after chunk. -/
def chunkCommands (chunks : List (List Byte)) : List Instr := chunks.flatMap fun c => c.map Instr.update

/-- The commands of R79: none at all when the file cannot be opened; INIT, the UPDATEs and FINAL for a file read to the end; no FINAL when a read fails
midway (the block is left with `ACTIVE = 1`). -/
def fileCommands (f : FileRead) (v : Word) (n : Bool) : List Instr :=
  match f with
  | .notFound => []
  | .complete d => .init v :: chunkCommands (fileChunks d) ++ [.final n]
  | .failed d => .init v :: chunkCommands (fileChunks d)

end Sys2Proof.Machine
end

