-- ==== Sys2Proof/Machine/Port.lean ====
section
/-! DEFINITION. The cycle-level layer below the transaction (R7): the port's signals (R39, R100, R112), the generator's steps
(R18, R58, R59) and the engine's three stages (R74). The spec calls all of it informative: no transaction-level result depends on it, and
`step` does not use it. It is here so that the two levels can be compared. -/

namespace Sys2Proof.Machine

/-- The generator's working state while a GEN executes (R18, R59). -/
structure Generator where
  /-- The polynomial held from the command. -/
  p : Word
  /-- The candidate byte. -/
  b : Byte
  /-- The rounds done, 0 to 8. -/
  k : Nat
  /-- The working value. -/
  w : Word
  deriving DecidableEq, Repr

/-- On acceptance of GEN p (R59): `b <- 0; k <- 0; w <- {0x00, 0x00}`. -/
def Generator.start (p : Word) : Generator := { p := p, b := 0, k := 0, w := 0 }

/-- One step while busy (R59): a round, or the store of a finished entry; `none` after the store of entry 255. -/
def Generator.advance (g : Generator) (m : Memory) : Memory × Option Generator :=
  if g.k < Config.roundsPerEntry then
    (m, some { g with w := crcRound g.w g.p, k := g.k + 1 })
  else
    (m.write g.b.toNat g.w,
      if g.b = 255 then none else some { g with b := g.b + 1, k := 0, w := atHigh (g.b + 1) })

/-- A command in execution: what is left of it. -/
inductive Job where
  /-- An accepted word to which the spec gives no stages: its whole effect falls in the cycle of its response (log entry 14). -/
  | whole (w : CmdWord)
  /-- A GEN in execution (R59). -/
  | generating (g : Generator)
  /-- An UPDATE before stage S1 (R74). -/
  | index (b : Byte)
  /-- An UPDATE between S1 and S2, with the index. -/
  | lookup (idx : Byte)
  /-- An UPDATE between S2 and S3, with the entry. -/
  | xorShift (t : Word)
  /-- The effect is complete, and the response is still to be delivered. -/
  | done (r : Response)
  deriving DecidableEq, Repr

/-- One internal step: a step of the generator (R59) or a stage of the engine (R74). -/
def Job.advance (j : Job) (s : State) : Job × State :=
  match j with
  | .whole w => (.whole w, s)
  | .generating g =>
    match g.advance s.table with
    | (m, some g') => (.generating g', { s with table := m })
    | (m, none) => (.done ⟨.ok, 0⟩, { s with table := m, tvalid := true })
  | .index b => (.lookup (tableIndex s.crcValue b), s)
  | .lookup idx => (.xorShift (s.lookup idx), s)
  | .xorShift t => (.done ⟨.ok, 0⟩, s.setCrc (Sys2Proof.Machine.xorShift t s.crcValue))
  | .done r => (.done r, s)

/-- `n` internal steps; a command whose effect is complete stays so. -/
def Job.run : Nat → Job × State → Job × State
  | 0, x => x
  | n + 1, x => Job.run n (x.1.advance x.2)

/-- As many internal steps as any command needs (R59: 8 rounds and one store for each of the 256 entries, 2304 in all). -/
@[irreducible] def Job.maxSteps : Nat := Config.tableDepth * (Config.roundsPerEntry + 1)

/-- What the block is doing in a cycle. -/
inductive Phase where
  /-- No command in execution: `cmd_ready = 1`. -/
  | idle
  /-- A command in execution, with the number of cycles before the one that delivers its response. -/
  | executing (wait : Nat) (job : Job)
  deriving DecidableEq, Repr

/-- The block at cycle level: the architectural state, what it is doing, and how many words it has accepted, the one in execution included (which
picks the free latency, log entry 13). -/
structure PortState where
  core : State
  phase : Phase
  accepted : Nat
  deriving DecidableEq, Repr

/-- The inputs sampled on a rising edge of `clk` (R39). -/
structure PortIn where
  rst : Bool
  cmdValid : Bool
  cmdWord : CmdWord
  deriving DecidableEq, Repr

/-- The outputs of a cycle (R39). `rsp` is `rsp_valid` and `rsp_word` together: `none` is `rsp_valid = 0`, where the word means nothing (U9). -/
structure PortOut where
  cmdReady : Bool
  rsp : Option RspWord
  deriving DecidableEq, Repr

/-- The block after reset at this level (R22): the reset state, the generator idle. -/
def PortState.reset : PortState := { core := State.reset, phase := .idle, accepted := 0 }

/-- Go to a phase. -/
def PortState.enter (c : PortState) (ph : Phase) : PortState := { c with phase := ph }

/-- The same block with another architectural state. -/
def PortState.withCore (c : PortState) (s : State) : PortState := { c with core := s }

/-- Begin the execution of the word accepted last. Its response comes `extraLatency + 1` cycles after its acceptance, so that the latency is free
and at least 1 for every command and every instance (R6, R110). -/
def PortState.begin (c : PortState) (j : Job) : PortState := c.enter (.executing (Config.extraLatency c.accepted) j)

/-- Acceptance of a word (R39). A GEN that is not refused starts the generator and clears `TVALID` (R58, R59); an UPDATE that is not refused
enters the engine's stages (R74); every other word, refused ones among them, executes in one piece. -/
def PortState.accept (c : PortState) (w : CmdWord) : PortState :=
  let c' := { c with accepted := c.accepted + 1 }
  match decode w with
  | .instr (.gen p) =>
    if c.core.active then c'.begin (.whole w)
    else (c'.withCore (c.core.setTvalid false)).begin (.generating (.start p))
  | .instr (.update b) => if c.core.active then c'.begin (.index b) else c'.begin (.whole w)
  | _ => c'.begin (.whole w)

/-- The state an outcome goes on in. The last two cases do not arise: no fault exists and no arm of exec refuses. -/
def stateAfter (o : Host.Outcome State Fault Refusal) (s : State) : State :=
  match o with
  | .next t => t
  | .fault _ => s
  | .refused _ => s

/-- The word of the newest response. -/
def State.newestWord (s : State) : Option RspWord := s.responses.getLast?.map Response.word

/-- Deliver the response of a command whose internal steps are done. The last case does not arise: `Job.maxSteps` steps end every command. -/
def Job.deliver (j : Job) (s : State) : Option RspWord × State :=
  match j with
  | .whole w => ((stateAfter (acceptWord w s) s).newestWord, stateAfter (acceptWord w s) s)
  | .done r => (some r.word, s.respond r.status r.data)
  | .generating _ | .index _ | .lookup _ | .xorShift _ => (none, s)

/-- One cycle with `rst = 0` while a command is in execution: the response delivered in it, if any, and the block after it. Before its last cycle a
command does as many internal steps as it likes, a free value for each cycle; in its last it does what is left of them (log entry 14). -/
def PortState.work (c : PortState) : Option RspWord × PortState :=
  match c.phase with
  | .idle => (none, c)
  | .executing (n + 1) j =>
    let x := Job.run (Config.stepsInCycle c.accepted n) (j, c.core)
    (none, (c.withCore x.2).enter (.executing n x.1))
  | .executing 0 j =>
    let x := Job.run Job.maxSteps (j, c.core)
    let y := x.1.deliver x.2
    (y.1, (c.withCore y.2).enter .idle)

/-- One rising edge of `clk` (R39, R100): `rst` wins over everything, delivers nothing and accepts nothing; a word is accepted only when the block
is idle; otherwise the command in execution goes on. In the cycle that delivers a response `cmd_ready` is still 0 (log entry 12). -/
def PortState.cycle (c : PortState) (i : PortIn) : PortOut × PortState :=
  if i.rst then
    ({ cmdReady := false, rsp := none }, (c.withCore c.core.takeReset).enter .idle)
  else if c.phase = .idle then
    ({ cmdReady := true, rsp := none }, if i.cmdValid then c.accept i.cmdWord else c)
  else
    ({ cmdReady := false, rsp := c.work.1 }, c.work.2)

/-- The cycles of a list of inputs, with the outputs in order. -/
def PortState.run : List PortIn → PortState → List PortOut × PortState
  | [], c => ([], c)
  | i :: is, c =>
    let x := c.cycle i
    let y := PortState.run is x.2
    (x.1 :: y.1, y.2)

end Sys2Proof.Machine
end

