-- ==== Sys2Proof/Safety.lean ====
section
/-! DEFINITION. The terms the statements use: the invariant, the error matrix, what a host can see, the grammar of sessions, runs. -/

namespace Sys2Proof.Machine

/-! The invariant. -/

/-- Every entry of the table is the entry of one polynomial (R12). -/
def State.Generated (s : State) : Prop :=
  ∃ p : Word, ∀ b : Byte, s.table.read b.toNat = some (tableEntry b p)

/-- The invariant of every reachable state: the table memory is in canonical form; `TVALID = 1` exactly when the table holds a generated table
(R12) and an invalid table holds no value at all (R13); `CRC` holds a value exactly when `ACTIVE = 1` (R15); and `ACTIVE = 1` implies `TVALID = 1` (R16). -/
structure State.Inv (s : State) : Prop where
  wf : s.table.wf = true
  generated : s.tvalid = true → s.Generated
  empty : s.tvalid = false → s.table = []
  crc : s.crc.isSome = s.active
  active : s.active = true → s.tvalid = true

/-! Words as numbers, apart from the decoder. -/

/-- The number of the `op` field (R37: `cmd = op * 65536 + arg`). -/
def opNumber (w : CmdWord) : Nat := w.toNat / 65536

/-- The number of the `arg` field. -/
def argNumber (w : CmdWord) : Nat := w.toNat % 65536

/-- R84: when a word is illegal, on numbers. -/
abbrev IllegalWord (w : CmdWord) : Prop :=
  (opNumber w = 0 ∨ 6 ≤ opNumber w)
    ∨ ((opNumber w = 2 ∨ opNumber w = 4) ∧ argNumber w / 256 ≠ 0)
    ∨ (opNumber w = 5 ∧ argNumber w / 2 ≠ 0)

/-- The matrix of R91: the status of a word under the two flags, by numbers alone. -/
def matrixStatus (w : CmdWord) (tvalid active : Bool) : Status :=
  match opNumber w with
  | 1 => if active then .errActive else .ok
  | 2 => if argNumber w / 256 ≠ 0 then .errIllegal else if tvalid then .ok else .errNoTable
  | 3 => if tvalid then .ok else .errNoTable
  | 4 => if argNumber w / 256 ≠ 0 then .errIllegal else if active then .ok else .errIdle
  | 5 => if argNumber w / 2 ≠ 0 then .errIllegal else if active then .ok else .errIdle
  | _ => .errIllegal

/-! The generator's rounds on integers with no mask (C4 of 90_conflicts.md). -/

/-- One round on an integer of any width: the bit tested is bit 15, and no bit is dropped. -/
def wideRound (w p : Nat) : Nat := if w.testBit 15 then (2 * w) ^^^ p else 2 * w

/-- `k` such rounds. -/
def wideRounds : Nat → Nat → Nat → Nat
  | 0, w, _ => w
  | k + 1, w, p => wideRounds k (wideRound w p) p

/-! Runs. -/

/-- `n` steps in a row, stopping at a fault or a refusal. -/
def runSteps : Nat → State → Host.Outcome State Fault Refusal
  | 0, s => .next s
  | n + 1, s =>
    match step s with
    | .next t => runSteps n t
    | .fault f => .fault f
    | .refused r => .refused r

/-- The events of a list of commands. -/
def commandEvents (is : List Instr) : List HostEvent := is.map fun i => .command (encode i)

/-- The events of a list of words. -/
def wordEvents (ws : List CmdWord) : List HostEvent := ws.map .command

/-- The state with the host about to send these events and nothing else. -/
def State.facing (s : State) (es : List HostEvent) : State := { s with events := es }

/-- The state after the head event is taken off and one response is delivered, everything else as it was: what every refusal leaves (R88). -/
def State.answered (s : State) (rest : List HostEvent) (r : Response) : State :=
  { s with events := rest, responses := s.responses ++ [r] }

/-- How many of the events are commands. -/
def commandCount : List HostEvent → Nat
  | [] => 0
  | .command _ :: es => commandCount es + 1
  | .reset :: es => commandCount es

/-- The commands of `compute(d, T, v, n)` (R72). -/
def computeCommands (d : List Byte) (v : Word) (n : Bool) : List Instr :=
  .init v :: d.map .update ++ [.final n]

/-- A command that may stand among the bytes of a computation without ending it: an UPDATE or a RDTAB (R76). -/
def midComputation : Instr → Bool
  | .update _ => true
  | .rdtab _ => true
  | _ => false

/-- The bytes a list of commands folds. -/
def bytesOf : List Instr → List Byte
  | [] => []
  | .update b :: is => b :: bytesOf is
  | _ :: is => bytesOf is

/-- The ASCII codes of a text as bytes (R52). -/
def asciiBytes (cs : List Char) : List Byte := cs.map fun c => BitVec.ofNat 8 c.toNat

/-! The cycle-level layer. -/

/-- How many internal steps the `a`-th accepted word has done in its first `k` cycles, at its free pace. -/
def stepsDone (a : Nat) : Nat → Nat
  | 0 => 0
  | k + 1 => stepsDone a k + Config.stepsInCycle a (Config.extraLatency a - (k + 1))

/-- The inputs of a host that offers words one after another, each in the cycle after the response to the one before; `a` words were accepted earlier. -/
def offerWords : Nat → List CmdWord → List PortIn
  | _, [] => []
  | a, w :: ws =>
    ⟨false, true, w⟩ :: (List.replicate (Config.extraLatency (a + 1) + 1) ⟨false, false, 0⟩ ++ offerWords (a + 1) ws)

/-- The outputs that answer such a host: for each word a ready cycle, the cycles it waits, and the cycle of its response. -/
def answerWords : Nat → List Response → List PortOut
  | _, [] => []
  | a, r :: rs =>
    ⟨true, none⟩ :: (List.replicate (Config.extraLatency (a + 1)) ⟨false, none⟩ ++ ⟨false, some r.word⟩ :: answerWords (a + 1) rs)

/-! What the host can see (R15, R97). -/

/-- Two states that no response can tell apart: the same flags and port; the same `CRC` while `ACTIVE = 1`; the same entries while a table is in use. -/
def State.LooksLike (s t : State) : Prop :=
  s.tvalid = t.tvalid ∧ s.active = t.active ∧ s.events = t.events ∧ s.responses = t.responses
    ∧ (s.active = true → s.crc = t.crc)
    ∧ (s.tvalid = true ∨ s.active = true → ∀ b : Byte, s.table.read b.toNat = t.table.read b.toNat)

/-! The grammar of sessions (R105). -/

/-- What follows the INIT of a computation: `{ INIT v | UPDATE b | RDTAB i }* FINAL n`. -/
inductive ComputationRest : List Instr → Prop where
  | final (n : Bool) : ComputationRest [.final n]
  | init (v : Word) {is : List Instr} : ComputationRest is → ComputationRest (.init v :: is)
  | update (b : Byte) {is : List Instr} : ComputationRest is → ComputationRest (.update b :: is)
  | rdtab (i : Byte) {is : List Instr} : ComputationRest is → ComputationRest (.rdtab i :: is)

/-- What follows the first GEN: `{ GEN p | RDTAB i | computation }*`. -/
inductive SessionRest : List Instr → Prop where
  | nil : SessionRest []
  | gen (p : Word) {is : List Instr} : SessionRest is → SessionRest (.gen p :: is)
  | rdtab (i : Byte) {is : List Instr} : SessionRest is → SessionRest (.rdtab i :: is)
  | computation (v : Word) {c is : List Instr} : ComputationRest c → SessionRest is → SessionRest (.init v :: c ++ is)

/-- `session := GEN p { GEN p | RDTAB i | computation }*`. -/
def IsSession (is : List Instr) : Prop := ∃ p rest, is = .gen p :: rest ∧ SessionRest rest

end Sys2Proof.Machine
end

