-- ==== Sys2Proof/Certificates/Slice0/Obligations.lean ====
section
/-! DEFINITION. The statements for the provers. Each docstring names the rule of spec/ it formalises. -/

open Sys2Proof Sys2Proof.Machine

/-! Reset, the port's events, and the step. -/

/-- R22: after reset both flags are 0, no table entry and no register content exists, and the generator is idle. -/
def Obligations.ResetStateHoldsNoValues : Prop :=
  State.reset.tvalid = false ∧ State.reset.active = false ∧ State.reset.crc = none
    ∧ (∀ a : Nat, State.reset.table.read a = none)
    ∧ PortState.reset.core = State.reset ∧ PortState.reset.phase = .idle

/-- R101: from every state, the middle of a command included (the cycle-level clause), reset gives the reset state, two resets equal one, and no command resets: a command
never clears `TVALID`. That the host's later events and the responses already delivered are kept is the model's choice (log entries 2 and 3), no rule of the spec. -/
def Obligations.ResetEventGivesResetState : Prop :=
  (∀ (s : State) (rest : List HostEvent), s.events = .reset :: rest →
    step s = .next { State.reset with events := rest, responses := s.responses })
  ∧ (∀ (s : State) (rest : List HostEvent), s.events = .reset :: .reset :: rest →
    runSteps 2 s = step { s with events := .reset :: rest })
  ∧ (∀ (s t : State) (w : CmdWord) (rest : List HostEvent), s.events = .command w :: rest →
    step s = .next t → s.tvalid = true → t.tvalid = true)
  ∧ (∀ (c : PortState) (i : PortIn), i.rst = true →
    (c.cycle i).2.core = { State.reset with events := c.core.events, responses := c.core.responses } ∧ (c.cycle i).2.phase = .idle)

/-- The model's choice (log entry 1), next to R9: when the host offers nothing, a step changes nothing. -/
def Obligations.IdlePortChangesNothing : Prop :=
  ∀ s : State, s.events = [] → step s = .next s

/-- R7, R49: when the word offered next decodes to a command, the step is `exec` of it on the state with the word taken off the port. -/
def Obligations.StepRunsDecodedCommand : Prop :=
  ∀ (s : State) (w : CmdWord) (i : Instr) (rest : List HostEvent),
    s.events = .command w :: rest → decode w = .instr i → step s = exec i { s with events := rest }

/-- R84: a word is answered `ERR_ILLEGAL` exactly when its numbers say so, in every state alike. -/
def Obligations.IllegalWordsAreExactlyThese : Prop :=
  ∀ (s : State) (w : CmdWord) (rest : List HostEvent), s.events = .command w :: rest →
    ∃ t r, step s = .next t ∧ t.responses = s.responses ++ [r]
      ∧ (r.status = .errIllegal ↔ IllegalWord w)
      ∧ ((∃ why, decode w = .illegal why) ↔ IllegalWord w)

/-- R47, R48: an illegal word is answered `respond(ERR_ILLEGAL, 0x0000)` and changes no state. -/
def Obligations.IllegalWordChangesNothing : Prop :=
  ∀ (s : State) (w : CmdWord) (rest : List HostEvent), s.events = .command w :: rest → IllegalWord w →
    step s = .next (s.answered rest ⟨.errIllegal, 0⟩)

/-- R99: every command, legal or not, in every state, gets a response; the step is total (R7). -/
def Obligations.StepNeverStops : Prop :=
  ∀ s : State, ∃ t, step s = .next t
    ∧ ∀ w rest, s.events = .command w :: rest → t.responses.length = s.responses.length + 1

/-! Encoding. -/

/-- R41 to R45, R49: words written out from the spec's patterns decode to the commands they stand for, and their neighbours are refused. -/
def Obligations.WrittenWordsDecode : Prop :=
  decode 0b00010001000000100001 = .instr (.gen 0x1021)
    ∧ decode 0b00100000000011111111 = .instr (.rdtab 255)
    ∧ decode 0b00111111111111111111 = .instr (.init 0xFFFF)
    ∧ decode 0b01000000000000110001 = .instr (.update 0x31)
    ∧ decode 0b01010000000000000001 = .instr (.final true)
    ∧ decode 0b01010000000000000000 = .instr (.final false)
    ∧ (∃ why, decode 0b01000000000100110001 = .illegal why)
    ∧ (∃ why, decode 0b00100000000100000000 = .illegal why)
    ∧ (∃ why, decode 0b01010000000000000010 = .illegal why)
    ∧ (∃ why, decode 0b00000000000000000000 = .illegal why)
    ∧ (∃ why, decode 0b01100000000000000000 = .illegal why)

/-- R41 to R46: decoding the word of a command gives it back, with every operand at every value. -/
def Obligations.DecodeOfEncodeIsIdentity : Prop :=
  ∀ i : Instr, decode (encode i) = .instr i

/-- R49: decoding is unambiguous: a word that decodes to a command is that command's one word. -/
def Obligations.DecodedWordIsItsEncoding : Prop :=
  ∀ (w : CmdWord) (i : Instr), decode w = .instr i → encode i = w

/-- R37, R50: the word of a command as a number is `op * 65536 + arg`. -/
def Obligations.CommandWordNumbers : Prop :=
  (∀ p : Word, (encode (.gen p)).toNat = 0x10000 + p.toNat)
    ∧ (∀ i : Byte, (encode (.rdtab i)).toNat = 0x20000 + i.toNat)
    ∧ (∀ v : Word, (encode (.init v)).toNat = 0x30000 + v.toNat)
    ∧ (∀ b : Byte, (encode (.update b)).toNat = 0x40000 + b.toNat)
    ∧ (∀ n : Bool, (encode (.final n)).toNat = 0x50000 + n.toNat)

/-- R48: "Legal words in all: 131586 of 1048576." -/
def Obligations.LegalWordCount : Prop :=
  Nat.card {w : CmdWord // ∃ i, decode w = .instr i} = 131586

/-- R38, R83: the response word as a number is `status * 65536 + data`; codes 0 to 4 are the five statuses and 5 to 7 are never produced; different
responses have different words. -/
def Obligations.ResponseWordLayout : Prop :=
  (∀ r : Response, r.word.toNat = r.status.code.toNat * 65536 + r.data.toNat ∧ r.status.code.toNat < 5)
    ∧ (∀ r q : Response, r.word = q.word → r = q)
    ∧ Status.ok.code = 0 ∧ Status.errIllegal.code = 1 ∧ Status.errNoTable.code = 2
    ∧ Status.errIdle.code = 3 ∧ Status.errActive.code = 4

/-! The functions of the Table Generator. -/

/-- R54, on numbers: the bit tested is bit 15 before the shift, and the mask to 16 bits is applied in the round. With the rule's three examples. -/
def Obligations.RoundOnNumbers : Prop :=
  (∀ w p : Word, (crcRound w p).toNat
    = (if 32768 ≤ w.toNat then (2 * w.toNat) ^^^ p.toNat else 2 * w.toNat) % 65536)
  ∧ crcRound 0x8000 0x1021 = 0x1021 ∧ crcRound 0x4084 0x1021 = 0x8108 ∧ crcRound 0x8108 0x1021 = 0x1231

/-- R55: an entry is eight rounds from the byte shifted left by 8 bits, and the table is the entries. With the rule's example. -/
def Obligations.EntryIsEightRounds : Prop :=
  (∀ (b : Byte) (p : Word), tableEntry b p = (fun w => crcRound w p)^[8] (BitVec.ofNat 16 (b.toNat * 256)))
  ∧ (∀ (b : Byte) (p : Word), genTable p b = tableEntry b p)
  ∧ (List.range 9).map (fun k => crcRounds k 0x8000 0x1021)
      = [0x8000, 0x1021, 0x2042, 0x4084, 0x8108, 0x1231, 0x2462, 0x48C4, 0x9188]
  ∧ tableEntry 0x80 0x1021 = 0x9188

/-- C4 of 90_conflicts.md: masking once after the eight rounds, on integers of any width, gives the same entry. -/
def Obligations.LateMaskGivesSameEntry : Prop :=
  ∀ (b : Byte) (p : Word), (tableEntry b p).toNat = wideRounds 8 (b.toNat * 256) p.toNat % 65536

/-- R60: entry 0 is 0x0000 for every polynomial, and so is `TABLE[0]` after any GEN. -/
def Obligations.EntryZeroIsZero : Prop :=
  (∀ p : Word, tableEntry 0 p = 0)
  ∧ ∀ (s : State) (p : Word), s.active = false → ∃ t, exec (.gen p) s = .next t ∧ t.table.read 0 = some 0

/-- R61: entry 1 is the polynomial, so after `GEN p` it can be read back from `TABLE[1]`. -/
def Obligations.EntryOneIsPolynomial : Prop :=
  (∀ p : Word, tableEntry 1 p = p)
  ∧ ∀ (s : State) (p : Word), s.active = false → ∃ t, exec (.gen p) s = .next t ∧ t.table.read 1 = some p

/-- R63: entries are linear in the byte, so every entry is the XOR of the entries at the powers of two that the byte is made of. -/
def Obligations.EntryIsLinear : Prop :=
  (∀ (a c : Byte) (p : Word), tableEntry (a ^^^ c) p = tableEntry a p ^^^ tableEntry c p)
  ∧ ∀ (b : Byte) (p : Word), tableEntry b p
      = ((List.range 8).filter fun k => b.getLsbD k).foldl (fun x k => x ^^^ tableEntry (BitVec.ofNat 8 (2 ^ k)) p) 0

/-! The functions of the CRC Engine. -/

/-- R66: one lookup at `(crc >> 8) XOR b`, then XOR with `(crc AND 0xFF) << 8`, masked; byte by byte; and the rule's example. -/
def Obligations.UpdateFunctionOnNumbers : Prop :=
  (∀ (c : Word) (b : Byte) (T : Byte → Word), (upd c b T).toNat
    = ((T (BitVec.ofNat 8 ((c.toNat / 256) ^^^ b.toNat))).toNat ^^^ (c.toNat % 256 * 256)) % 65536)
  ∧ (∀ (c : Word) (b : Byte) (T : Byte → Word),
      hiByte (upd c b T) = hiByte (T (hiByte c ^^^ b)) ^^^ loByte c ∧ loByte (upd c b T) = loByte (T (hiByte c ^^^ b)))
  ∧ upd 0xFFFF 0x31 (genTable 0x1021) = 0xC782

/-- R67: unchanged when the flag is 0, the 16-bit complement when it is 1; and the rule's examples. -/
def Obligations.FinalisationOnNumbers : Prop :=
  (∀ c : Word, fin c false = c ∧ fin c true = c ^^^ 0xFFFF ∧ (fin c true).toNat = 65535 - c.toNat)
  ∧ fin 0x29B1 true = 0xD64E ∧ fin 0x29B1 false = 0x29B1

/-- R81: with a generated table, one update is eight rounds of the register with the byte in its high half. -/
def Obligations.UpdateEqualsEightRounds : Prop :=
  ∀ (p c : Word) (b : Byte), upd c b (genTable p) = (fun w => crcRound w p)^[8] (c ^^^ atHigh b)

/-- R82: the update is linear; the difference of two computations over sequences of one length depends only on the difference of their initial values;
and with the table of polynomial 0 the register is shifted out. -/
def Obligations.UpdateIsLinear : Prop :=
  (∀ (p c₁ c₂ : Word) (b₁ b₂ : Byte),
    upd (c₁ ^^^ c₂) (b₁ ^^^ b₂) (genTable p) = upd c₁ b₁ (genTable p) ^^^ upd c₂ b₂ (genTable p))
  ∧ (∀ (p v₁ v₂ u₁ u₂ : Word) (d e : List Byte), d.length = e.length → v₁ ^^^ v₂ = u₁ ^^^ u₂ →
      compute d (genTable p) v₁ false ^^^ compute d (genTable p) v₂ false
        = compute e (genTable p) u₁ false ^^^ compute e (genTable p) u₂ false)
  ∧ (∀ (c : Word) (b : Byte), upd c b (genTable 0) = atHigh (loByte c))
  ∧ ∀ (v : Word) (d : List Byte), 2 ≤ d.length → foldBytes (genTable 0) v d = 0

/-! The five commands: what each does, and what it leaves unchanged. -/

/-- R56: GEN outside a computation fills all 256 entries, sets `TVALID` and answers OK 0x0000, touching nothing else; in a computation it is refused with
`ERR_ACTIVE`. With corner case (c) and the rule's example entries. -/
def Obligations.GenFillsTable : Prop :=
  (∀ (s : State) (p : Word), s.active = false → ∃ t, exec (.gen p) s = .next t
    ∧ (∀ b : Byte, t.table.read b.toNat = some (tableEntry b p))
    ∧ t.tvalid = true ∧ t.active = false ∧ t.crc = s.crc ∧ t.events = s.events
    ∧ t.responses = s.responses ++ [⟨.ok, 0⟩])
  ∧ (∀ (s : State) (p : Word), s.active = true →
      exec (.gen p) s = .next { s with responses := s.responses ++ [⟨.errActive, 0⟩] })
  ∧ (∀ b : Byte, tableEntry b 0 = 0)
  ∧ tableEntry 0x01 0x1021 = 0x1021 ∧ tableEntry 0x80 0x1021 = 0x9188 ∧ tableEntry 0xFF 0x1021 = 0x1EF0

/-- R24, R62: from any canonical table, GEN leaves exactly the 256 entries, in byte order, each once. -/
def Obligations.GenTableIsInByteOrder : Prop :=
  ∀ (s : State) (p : Word), s.active = false → s.table.wf = true → ∃ t, exec (.gen p) s = .next t
    ∧ t.table = (List.range 256).map fun b => (b, tableEntry (BitVec.ofNat 8 b) p)

/-- R57: RDTAB answers OK with the entry and writes nothing, whatever the engine does; without a table it is refused with `ERR_NOTABLE`. After
GEN the entry is the generator's; a word with a reserved bit set is no RDTAB; and the rule's corner case and example hold. -/
def Obligations.RdtabReturnsEntry : Prop :=
  (∀ (s : State) (i : Byte), s.tvalid = true → ∃ v,
    exec (.rdtab i) s = .next { s with responses := s.responses ++ [⟨.ok, v⟩] }
      ∧ ∀ u, s.table.read i.toNat = some u → v = u)
  ∧ (∀ (s : State) (i : Byte), s.tvalid = false →
      exec (.rdtab i) s = .next { s with responses := s.responses ++ [⟨.errNoTable, 0⟩] })
  ∧ (∀ (s t : State) (p : Word) (i : Byte), s.active = false → exec (.gen p) s = .next t →
      exec (.rdtab i) t = .next { t with responses := t.responses ++ [⟨.ok, tableEntry i p⟩] })
  ∧ (∀ w : CmdWord, w.toNat / 65536 = 2 → w.toNat % 65536 / 256 ≠ 0 → ∃ why, decode w = .illegal why)
  ∧ (∀ p : Word, tableEntry 0 p = 0) ∧ tableEntry 0x80 0x1021 = 0x9188

/-- R68: INIT loads `CRC`, sets `ACTIVE` and answers OK 0x0000, in a computation too; without a table it is refused with `ERR_NOTABLE`. -/
def Obligations.InitBeginsComputation : Prop :=
  (∀ (s : State) (v : Word), s.tvalid = true →
    exec (.init v) s = .next { s with crc := some v, active := true, responses := s.responses ++ [⟨.ok, 0⟩] })
  ∧ (∀ (s : State) (v : Word), s.tvalid = false →
      exec (.init v) s = .next { s with responses := s.responses ++ [⟨.errNoTable, 0⟩] })

/-- R69: UPDATE in a computation writes `CRC` only, with `upd` of the old register, the byte and the table, and answers OK 0x0000; outside one it is
refused with `ERR_IDLE`. A word with a reserved bit set is no UPDATE. With corner cases (a) and (b) and the rule's example. -/
def Obligations.UpdateFoldsOneByte : Prop :=
  (∀ (s : State) (b : Byte), s.active = true → ∃ c',
    exec (.update b) s = .next { s with crc := some c', responses := s.responses ++ [⟨.ok, 0⟩] }
      ∧ ∀ (c : Word) (T : Byte → Word), s.crc = some c → (∀ i : Byte, s.table.read i.toNat = some (T i)) →
          c' = upd c b T)
  ∧ (∀ (s : State) (b : Byte), s.active = false →
      exec (.update b) s = .next { s with responses := s.responses ++ [⟨.errIdle, 0⟩] })
  ∧ (∀ w : CmdWord, w.toNat / 65536 = 4 → w.toNat % 65536 / 256 ≠ 0 → ∃ why, decode w = .illegal why)
  ∧ (∀ (c p : Word), upd c (hiByte c) (genTable p) = atHigh (loByte c))
  ∧ (∀ T : Byte → Word, T 0 = 0 → upd 0xFFFF 0xFF T = 0xFF00)
  ∧ upd 0xFFFF 0x00 (genTable 0x1021) = 0xE1F0 ∧ upd 0xFFFF 0x31 (genTable 0x1021) = 0xC782

/-- R70: FINAL in a computation answers OK with the finalised register, clears `ACTIVE` and leaves `CRC` holding no value; outside one it is refused with
`ERR_IDLE`, so a second FINAL is; straight after INIT it gives the initial value finalised. A word with a reserved bit set is no FINAL. With the rule's examples. -/
def Obligations.FinalDeliversResult : Prop :=
  (∀ (s : State) (n : Bool), s.active = true → ∃ r,
    exec (.final n) s = .next { s with crc := none, active := false, responses := s.responses ++ [⟨.ok, r⟩] }
      ∧ ∀ c, s.crc = some c → r = fin c n)
  ∧ (∀ (s : State) (n : Bool), s.active = false →
      exec (.final n) s = .next { s with responses := s.responses ++ [⟨.errIdle, 0⟩] })
  ∧ (∀ (s t : State) (n m : Bool), s.active = true → exec (.final n) s = .next t →
      exec (.final m) t = .next { t with responses := t.responses ++ [⟨.errIdle, 0⟩] })
  ∧ (∀ (s t : State) (v : Word) (n : Bool), s.tvalid = true → exec (.init v) s = .next t →
      exec (.final n) t = .next { t with crc := none, active := false, responses := t.responses ++ [⟨.ok, fin v n⟩] })
  ∧ (∀ w : CmdWord, w.toNat / 65536 = 5 → w.toNat % 65536 / 2 ≠ 0 → ∃ why, decode w = .illegal why)
  ∧ fin 0x29B1 false = 0x29B1 ∧ fin 0x29B1 true = 0xD64E

/-- The frame of RDTAB, INIT, UPDATE and FINAL (R57, R68 to R70): the whole table memory and `TVALID` are unchanged, the port's input too, RDTAB leaves `CRC` and
`ACTIVE`, and UPDATE leaves `ACTIVE`. -/
def Obligations.EngineCommandsKeepTable : Prop :=
  ∀ (s t : State),
    (∀ i, exec (.rdtab i) s = .next t →
      (∀ a, t.table.read a = s.table.read a) ∧ t.tvalid = s.tvalid ∧ t.events = s.events ∧ t.crc = s.crc ∧ t.active = s.active)
    ∧ (∀ v, exec (.init v) s = .next t →
      (∀ a, t.table.read a = s.table.read a) ∧ t.tvalid = s.tvalid ∧ t.events = s.events)
    ∧ (∀ b, exec (.update b) s = .next t →
      (∀ a, t.table.read a = s.table.read a) ∧ t.tvalid = s.tvalid ∧ t.events = s.events ∧ t.active = s.active)
    ∧ (∀ n, exec (.final n) s = .next t →
      (∀ a, t.table.read a = s.table.read a) ∧ t.tvalid = s.tvalid ∧ t.events = s.events)

/-- The frame of GEN (R53, R56): `CRC`, `ACTIVE` and the port's input are unchanged; nothing outside the index space is written; and a refused GEN
leaves every entry. -/
def Obligations.GenTouchesOnlyTable : Prop :=
  ∀ (s t : State) (p : Word), exec (.gen p) s = .next t →
    t.crc = s.crc ∧ t.active = s.active ∧ t.events = s.events
      ∧ (∀ a, 256 ≤ a → t.table.read a = s.table.read a)
      ∧ (s.active = true → t.tvalid = s.tvalid ∧ ∀ a, t.table.read a = s.table.read a)

/-! Responses and errors. -/

/-- R91: the status of every word in every state is the one of the matrix, computed from numbers alone. -/
def Obligations.StatusFollowsErrorMatrix : Prop :=
  ∀ (s : State) (w : CmdWord) (rest : List HostEvent), s.events = .command w :: rest →
    ∃ t d, step s = .next t ∧ t.responses = s.responses ++ [⟨matrixStatus w s.tvalid s.active, d⟩]

/-- R88: a refused command delivers `{E, 0x0000}` and writes no state at all. -/
def Obligations.RefusedCommandWritesNoState : Prop :=
  ∀ (s t : State) (w : CmdWord) (rest : List HostEvent), s.events = .command w :: rest → step s = .next t →
    ∃ r, t.responses = s.responses ++ [r] ∧ (r.status ≠ .ok → r.data = 0 ∧ t = s.answered rest r)

/-- R38: `data` is 0x0000 in every response but an OK answer to RDTAB or FINAL. -/
def Obligations.OnlyRdtabAndFinalReturnData : Prop :=
  ∀ (s t : State) (w : CmdWord) (rest : List HostEvent), s.events = .command w :: rest → step s = .next t →
    ∃ r, t.responses = s.responses ++ [r]
      ∧ (r.data ≠ 0 → r.status = .ok ∧ ((∃ i, w = encode (.rdtab i)) ∨ ∃ n, w = encode (.final n)))

/-- R33, R38: running all the host's events answers each command with one response, in order after those already there, and a reset with none. -/
def Obligations.OneResponsePerCommand : Prop :=
  ∀ s : State, ∃ t rs, runSteps s.events.length s = .next t ∧ t.events = []
    ∧ t.responses = s.responses ++ rs ∧ rs.length = commandCount s.events

/-- R103: in the reset state only GEN is useful: every other word is answered with its error and changes nothing. -/
def Obligations.OnlyGenIsUsefulAfterReset : Prop :=
  ∀ (s : State) (rest : List HostEvent), s.tvalid = false → s.active = false →
    (∀ p, s.events = .command (encode (.gen p)) :: rest → ∃ t, step s = .next t ∧ t.tvalid = true
      ∧ t.responses = s.responses ++ [⟨.ok, 0⟩])
    ∧ (∀ i, s.events = .command (encode (.rdtab i)) :: rest → step s = .next (s.answered rest ⟨.errNoTable, 0⟩))
    ∧ (∀ v, s.events = .command (encode (.init v)) :: rest → step s = .next (s.answered rest ⟨.errNoTable, 0⟩))
    ∧ (∀ b, s.events = .command (encode (.update b)) :: rest → step s = .next (s.answered rest ⟨.errIdle, 0⟩))
    ∧ (∀ n, s.events = .command (encode (.final n)) :: rest → step s = .next (s.answered rest ⟨.errIdle, 0⟩))
    ∧ (∀ w, IllegalWord w → s.events = .command w :: rest → step s = .next (s.answered rest ⟨.errIllegal, 0⟩))

/-! Invariants and whole-machine rules. -/

/-- The reset state meets the invariant. -/
def Obligations.ResetMeetsStateInvariant : Prop := State.reset.Inv

/-- R12, R13, R15, R16: every step keeps the invariant, from every state that meets it. -/
def Obligations.StepKeepsStateInvariant : Prop :=
  ∀ s t : State, s.Inv → step s = .next t → t.Inv

/-- R16: in every state reachable from reset, whatever the host sends, `ACTIVE = 1` implies `TVALID = 1`. -/
def Obligations.ActiveImpliesTableValid : Prop :=
  ∀ (es : List HostEvent) (n : Nat) (t : State),
    runSteps n (State.reset.facing es) = .next t → t.active = true → t.tvalid = true

/-- R17 (a), R11: a step changes the table only by an accepted GEN outside a computation, or by reset. -/
def Obligations.TableChangesOnlyByGenOrReset : Prop :=
  ∀ s t : State, step s = .next t → t.table ≠ s.table →
    (∃ rest, s.events = .reset :: rest)
    ∨ (∃ p rest, s.events = .command (encode (.gen p)) :: rest ∧ s.active = false)

/-- R13, R15: `TVALID` is set only by GEN and cleared only by reset; `ACTIVE` is set only by INIT with a table and cleared only by FINAL or reset. -/
def Obligations.FlagsChangeOnlyByTheirCommands : Prop :=
  ∀ s t : State, step s = .next t →
    (s.tvalid = false → t.tvalid = true → s.active = false ∧ ∃ p rest, s.events = .command (encode (.gen p)) :: rest)
    ∧ (s.tvalid = true → t.tvalid = false → ∃ rest, s.events = .reset :: rest)
    ∧ (s.active = false → t.active = true → s.tvalid = true ∧ ∃ v rest, s.events = .command (encode (.init v)) :: rest)
    ∧ (s.active = true → t.active = false →
        (∃ rest, s.events = .reset :: rest) ∨ ∃ n rest, s.events = .command (encode (.final n)) :: rest)

/-- R13, R15, U5: what `CRC` holds while `ACTIVE = 0`, and what the table holds while it is not in use, never reaches a response: two states the host cannot
tell apart stay so. -/
def Obligations.UnusedContentsNeverShow : Prop :=
  ∀ s₁ s₂ t₁ t₂ : State, s₁.LooksLike s₂ → step s₁ = .next t₁ → step s₂ = .next t₂ → t₁.LooksLike t₂

/-! Sequences of commands. -/

/-- R72: `compute` as the sequence INIT, one UPDATE per byte, FINAL: from any state with a table, in a computation or not, every command answers OK, the last response
carries the result, and afterwards no computation is in progress and the table is as before. -/
def Obligations.ComputeIsInitUpdatesFinal : Prop :=
  ∀ (s : State) (T : Byte → Word) (d : List Byte) (v : Word) (n : Bool) (rest : List HostEvent),
    s.tvalid = true → (∀ i : Byte, s.table.read i.toNat = some (T i)) →
    runSteps (d.length + 2) (s.facing (commandEvents (computeCommands d v n) ++ rest)) = .next
      { s with
        crc := none
        active := false
        events := rest
        responses := s.responses ++ List.replicate (d.length + 1) ⟨.ok, 0⟩
          ++ [⟨.ok, fin (d.foldl (fun c b => upd c b T) v) n⟩] }

/-- R73: with no byte in between, the result is the initial value, or its complement. -/
def Obligations.EmptyInputReturnsInitial : Prop :=
  ∀ (s : State) (v : Word) (rest : List HostEvent), s.tvalid = true →
    runSteps 2 (s.facing (commandEvents [.init v, .final false] ++ rest)) = .next
      { s with crc := none, active := false, events := rest, responses := s.responses ++ [⟨.ok, 0⟩, ⟨.ok, v⟩] }
    ∧ runSteps 2 (s.facing (commandEvents [.init v, .final true] ++ rest)) = .next
      { s with crc := none, active := false, events := rest, responses := s.responses ++ [⟨.ok, 0⟩, ⟨.ok, v ^^^ 0xFFFF⟩] }

/-- R76: among the bytes of a computation, RDTABs make no difference: the register is the fold of the bytes sent, in order, and nothing else. -/
def Obligations.RegisterDependsOnlyOnBytes : Prop :=
  ∀ (s : State) (T : Byte → Word) (c : Word) (is : List Instr), s.tvalid = true → s.active = true → s.crc = some c →
    (∀ i : Byte, s.table.read i.toNat = some (T i)) → (∀ i ∈ is, midComputation i = true) →
    ∃ t rs, runSteps is.length (s.facing (commandEvents is)) = .next t
      ∧ t.crc = some ((bytesOf is).foldl (fun c b => upd c b T) c)
      ∧ t.active = true ∧ t.tvalid = true ∧ t.table = s.table
      ∧ t.responses = s.responses ++ rs ∧ rs.length = is.length ∧ ∀ r ∈ rs, r.status = .ok

/-- R78, R79: the host's file procedure, chunk by chunk, gives the result of the whole sequence of bytes; a file that cannot be opened sends nothing; a read that
fails midway leaves the computation open with the bytes read so far. -/
def Obligations.FileProcedureIsChunkInvariant : Prop :=
  (∀ d : List Byte, (fileChunks d).flatten = d ∧ ∀ c ∈ fileChunks d, c.length ≤ 1024)
  ∧ (∀ (d : List Byte) (v : Word) (n : Bool), fileCommands (.complete d) v n = computeCommands d v n)
  ∧ (∀ (v : Word) (n : Bool), fileCommands .notFound v n = [])
  ∧ (∀ (s : State) (T : Byte → Word) (d : List Byte) (v : Word) (n : Bool), s.tvalid = true →
      (∀ i : Byte, s.table.read i.toNat = some (T i)) →
      ∃ t, runSteps (d.length + 1) (s.facing (commandEvents (fileCommands (.failed d) v n))) = .next t
        ∧ t.active = true ∧ t.crc = some (d.foldl (fun c b => upd c b T) v))

/-- R105: the sequences that answer OK throughout after a reset: every session does, and every non-empty sequence that does is the beginning of a session. -/
def Obligations.SessionsAreTheOkSequences : Prop :=
  (∀ (s : State) (is : List Instr), s.tvalid = false → s.active = false → IsSession is →
    ∃ t rs, runSteps is.length (s.facing (commandEvents is)) = .next t
      ∧ t.responses = s.responses ++ rs ∧ ∀ r ∈ rs, r.status = .ok)
  ∧ (∀ (s t : State) (is : List Instr) (rs : List Response), s.tvalid = false → s.active = false → is ≠ [] →
      runSteps is.length (s.facing (commandEvents is)) = .next t →
      t.responses = s.responses ++ rs → (∀ r ∈ rs, r.status = .ok) → ∃ tail, IsSession (is ++ tail))

/-! The notation. -/

/-- R50: an operand in range denotes one word, the command's own; an operand out of range denotes no word; `RAW w` is the word itself. -/
def Obligations.LinesDenoteTheirWords : Prop :=
  (∀ n, n < 65536 → assembleLine (.gen (some n)) = some [encode (.gen (BitVec.ofNat 16 n))]
      ∧ assembleLine (.init (some n)) = some [encode (.init (BitVec.ofNat 16 n))])
  ∧ (∀ n, n < 256 → assembleLine (.rdtab n) = some [encode (.rdtab (BitVec.ofNat 8 n))]
      ∧ assembleLine (.update n) = some [encode (.update (BitVec.ofNat 8 n))])
  ∧ assembleLine (.final (some 0)) = some [encode (.final false)]
  ∧ assembleLine (.final (some 1)) = some [encode (.final true)]
  ∧ (∀ w : CmdWord, assembleLine (.raw w.toNat) = some [w])
  ∧ (∀ n, 65536 ≤ n → assembleLine (.gen (some n)) = none ∧ assembleLine (.init (some n)) = none)
  ∧ (∀ n, 256 ≤ n → assembleLine (.rdtab n) = none ∧ assembleLine (.update n) = none)
  ∧ (∀ n, 2 ≤ n → assembleLine (.final (some n)) = none)
  ∧ (∀ n, 1048576 ≤ n → assembleLine (.raw n) = none)

/-- R51: an omitted operand takes BPD6's default. -/
def Obligations.OmittedOperandsTakeDefaults : Prop :=
  assembleLine (.gen none) = some [0x11021] ∧ assembleLine (.init none) = some [0x3FFFF]
    ∧ assembleLine (.final none) = some [0x50000]

/-- R52: COMPUTE expands to INIT, the UPDATEs of its data in order, and FINAL, with the defaults of R51, and UPDATES to the UPDATEs: for data written as
numbers and for data written as text, each character by its ASCII code. That an empty text is accepted is the model's choice (log entry 17). -/
def Obligations.ComputeMacroExpands : Prop :=
  (∀ (d : List Byte) (v : Word) (n : Bool), d ≠ [] →
    assembleLine (.compute (.bytes (d.map BitVec.toNat)) (some v.toNat) (some n.toNat)) = some ((computeCommands d v n).map encode)
    ∧ assembleLine (.compute (.bytes (d.map BitVec.toNat)) (some v.toNat) none) = some ((computeCommands d v false).map encode)
    ∧ assembleLine (.compute (.bytes (d.map BitVec.toNat)) none none) = some ((computeCommands d 0xFFFF false).map encode)
    ∧ assembleLine (.updates (.bytes (d.map BitVec.toNat))) = some (d.map fun b => encode (.update b)))
  ∧ ∀ (cs : List Char) (v : Word) (n : Bool), (∀ c ∈ cs, c.toNat < 128) →
    assembleLine (.compute (.text cs) (some v.toNat) (some n.toNat)) = some ((computeCommands (asciiBytes cs) v n).map encode)
    ∧ assembleLine (.compute (.text cs) (some v.toNat) none) = some ((computeCommands (asciiBytes cs) v false).map encode)
    ∧ assembleLine (.compute (.text cs) none none) = some ((computeCommands (asciiBytes cs) 0xFFFF false).map encode)
    ∧ assembleLine (.updates (.text cs)) = some (cs.map fun c => encode (.update (BitVec.ofNat 8 c.toNat)))

/-! The cycle-level layer (R7: below the normative level). -/

/-- R100, R102: in any cycle in which reset is sampled the command in execution is abandoned without a response and the block is in the reset state, ready in the
next cycle. The equality also says what is the model's choice, no rule of the spec: reset keeps the host's later events and the responses already
delivered (log entries 2 and 3), and the count of accepted words (log entry 13). -/
def Obligations.PortResetAbandonsCommand : Prop :=
  ∀ (c : PortState) (i : PortIn), i.rst = true →
    c.cycle i = ({ cmdReady := false, rsp := none },
      { c with core := { State.reset with events := c.core.events, responses := c.core.responses }, phase := .idle })
    ∧ ∀ j : PortIn, j.rst = false → ((c.cycle i).2.cycle j).1.cmdReady = true

/-- R33 (b), R39: the port is ready exactly when no command is in execution and reset is not sampled, and when it is not ready the offered word makes no
difference. That a ready cycle delivers no response, `cmd_ready` being still 0 in the cycle of one, is the model's choice (log entry 12). -/
def Obligations.PortTakesOneCommandAtATime : Prop :=
  ∀ (c : PortState) (i : PortIn),
    ((c.cycle i).1.cmdReady = true ↔ i.rst = false ∧ c.phase = .idle)
    ∧ ((c.cycle i).1.cmdReady = true → (c.cycle i).1.rsp = none)
    ∧ ((c.cycle i).1.cmdReady = false → ∀ v w, c.cycle { i with cmdValid := v, cmdWord := w } = c.cycle i)

/-- R58, R59: a GEN takes 2304 generator steps; before the last of them `TVALID = 0`, and after it every entry is the entry of the polynomial, `TVALID = 1`
and the OK response is due. At the port the steps run while the response waits, from the cycle after acceptance on. How many fall in a cycle is a
free value, and that they begin in that cycle is the model's choice (log entry 14). -/
def Obligations.GeneratorSequencingFillsTable : Prop :=
  (∀ (s : State) (p : Word) (n : Nat), s.tvalid = false →
    let x := Job.run n (.generating (.start p), s)
    (n < 2304 → x.2.tvalid = false ∧ ∃ g, x.1 = .generating g)
    ∧ (2304 ≤ n → x.2.tvalid = true ∧ (∀ b : Byte, x.2.table.read b.toNat = some (tableEntry b p)) ∧ x.1 = .done ⟨.ok, 0⟩)
    ∧ x.2.crc = s.crc ∧ x.2.active = s.active ∧ x.2.events = s.events ∧ x.2.responses = s.responses)
  ∧ ∀ (c : PortState) (p : Word) (is : List PortIn), c.phase = .idle → c.core.active = false →
    is.length ≤ Config.extraLatency (c.accepted + 1) → (∀ i ∈ is, i.rst = false) →
    let x := Job.run (stepsDone (c.accepted + 1) is.length) (.generating (.start p), { c.core with tvalid := false })
    (PortState.run ({ rst := false, cmdValid := true, cmdWord := encode (.gen p) } :: is) c).2
      = { core := x.2, phase := .executing (Config.extraLatency (c.accepted + 1) - is.length) x.1, accepted := c.accepted + 1 }

/-- R7, R33, R39, R99, R110: the cycle level refines the transaction level. A word accepted by an idle block is answered once, by the response of
`step`, after a latency that is at least 1 and free for each accepted word; until then nothing is delivered and nothing is accepted; and the block then
holds the state of `step`. The model's choices in it, no rules of the spec: `cmd_ready` is still 0 in the cycle of the response (log entry 12), the latency is
drawn by the count of accepted words (log entry 13), and the effect is complete in the cycle of the response, whatever the pace (log entry 14). -/
def Obligations.PortRefinesStep : Prop :=
  ∀ (c : PortState) (w : CmdWord), c.phase = .idle →
    ∃ (t : State) (r : Response),
      step { c.core with events := .command w :: c.core.events } = .next t
      ∧ t.responses = c.core.responses ++ [r]
      ∧ ∀ is : List PortIn, is.length = Config.extraLatency (c.accepted + 1) + 1 → (∀ i ∈ is, i.rst = false) →
        PortState.run ({ rst := false, cmdValid := true, cmdWord := w } :: is) c =
          ({ cmdReady := true, rsp := none }
              :: (List.replicate (Config.extraLatency (c.accepted + 1)) { cmdReady := false, rsp := none }
                ++ [{ cmdReady := false, rsp := some r.word }]),
            { core := t, phase := .idle, accepted := c.accepted + 1 })

/-- R33, R39, R110, R111: a list of words in, a list of responses of the same length out. Words offered one after another are answered in order by the responses
of the steps, each after a latency of its own: the waits of two words are drawn at different counts (log entry 13). The ready cycle of the next word
comes after the cycle of a response, which is the model's choice (log entry 12). -/
def Obligations.PortAnswersWordsInOrder : Prop :=
  ∀ (c : PortState) (ws : List CmdWord), c.phase = .idle →
    ∃ (t : State) (rs : List Response),
      runSteps ws.length { c.core with events := wordEvents ws ++ c.core.events } = .next t
      ∧ t.responses = c.core.responses ++ rs ∧ rs.length = ws.length
      ∧ PortState.run (offerWords c.accepted ws) c
          = (answerWords c.accepted rs, { core := t, phase := .idle, accepted := c.accepted + ws.length })

/-! The response of a macro. -/

/-- R52, R72: the response of a COMPUTE is that of its last command if every earlier one answered OK, and with a valid table it is OK with the checksum. That it has
no response otherwise is the model's choice (log entry 17). -/
def Obligations.MacroResponseIsTheLast : Prop :=
  (∀ (rs : List Response) (r : Response), (∀ q ∈ rs, q.status = .ok) → macroResponse (rs ++ [r]) = some r)
  ∧ (∀ (rs : List Response) (q r : Response), q ∈ rs → q.status ≠ .ok → macroResponse (rs ++ [r]) = none)
  ∧ ∀ (s : State) (T : Byte → Word) (d : List Byte) (v : Word) (n : Bool), s.tvalid = true →
      (∀ i : Byte, s.table.read i.toNat = some (T i)) →
      ∃ t rs, runSteps (d.length + 2) (s.facing (commandEvents (computeCommands d v n))) = .next t
        ∧ t.responses = s.responses ++ rs ∧ macroResponse rs = some ⟨.ok, compute d T v n⟩
end

