-- ==== Sys2Proof/Laws/Operands.lean ====
section
/-! SUPPORT. The fields of words as numbers, the words put together from fields, and the fields taken apart again. -/

namespace Sys2Proof.Machine

/-! Fields as numbers. -/

theorem opField_toNat (w : CmdWord) : (opField w).toNat = w.toNat / 65536 := by
  have := w.isLt
  simp only [opField, BitVec.extractLsb'_toNat, Nat.shiftRight_eq_div_pow]
  omega

theorem argField_toNat (w : CmdWord) : (argField w).toNat = w.toNat % 65536 := by
  simp [argField, BitVec.extractLsb'_toNat]

theorem argLow_toNat (w : CmdWord) : (argLow w).toNat = w.toNat % 256 := by
  simp [argLow, BitVec.extractLsb'_toNat]

theorem argHigh_toNat (w : CmdWord) : (argHigh w).toNat = w.toNat / 256 % 256 := by
  simp [argHigh, BitVec.extractLsb'_toNat, Nat.shiftRight_eq_div_pow]

theorem argAboveFlag_toNat (w : CmdWord) : (argAboveFlag w).toNat = w.toNat / 2 % 32768 := by
  simp [argAboveFlag, BitVec.extractLsb'_toNat, Nat.shiftRight_eq_div_pow]

theorem argFlag_toNat (w : CmdWord) : (argFlag w).toNat = w.toNat % 2 := by
  simp only [argFlag, BitVec.getLsbD, Nat.testBit_zero]
  rcases Nat.mod_two_eq_zero_or_one w.toNat with h | h <;> simp [h]

theorem hiByte_toNat (c : Word) : (hiByte c).toNat = c.toNat / 256 := by
  have := c.isLt
  simp only [hiByte, BitVec.extractLsb'_toNat, Nat.shiftRight_eq_div_pow]
  omega

theorem loByte_toNat (c : Word) : (loByte c).toNat = c.toNat % 256 := by
  simp [loByte, BitVec.extractLsb'_toNat]

/-! Words from fields, as numbers. -/

theorem cmdWord_toNat (op : BitVec 4) (arg : Word) : (op ++ arg : CmdWord).toNat = op.toNat * 65536 + arg.toNat := by
  have h : (op ++ arg : CmdWord).toNat = op.toNat <<< 16 ||| arg.toNat := BitVec.toNat_append op arg
  rw [h, ← Nat.shiftLeft_add_eq_or_of_lt arg.isLt, Nat.shiftLeft_eq]

theorem word_toNat (h l : Byte) : (h ++ l : Word).toNat = h.toNat * 256 + l.toNat := by
  have e : (h ++ l : Word).toNat = h.toNat <<< 8 ||| l.toNat := BitVec.toNat_append h l
  rw [e, ← Nat.shiftLeft_add_eq_or_of_lt l.isLt, Nat.shiftLeft_eq]

theorem atHigh_toNat (b : Byte) : (atHigh b).toNat = b.toNat * 256 := by
  have h := word_toNat b 0
  simpa [atHigh] using h

theorem encode_toNat (i : Instr) : (encode i).toNat = (opcodeOf i).toNat * 65536 + (argumentOf i).toNat :=
  cmdWord_toNat (opcodeOf i) (argumentOf i)

/-! Bytes of words, bit by bit. -/

theorem hiByte_xor (a c : Word) : hiByte (a ^^^ c) = hiByte a ^^^ hiByte c := by
  ext i hi; simp [hiByte]

theorem loByte_xor (a c : Word) : loByte (a ^^^ c) = loByte a ^^^ loByte c := by
  ext i hi; simp [loByte]

theorem atHigh_xor (a c : Byte) : atHigh (a ^^^ c) = atHigh a ^^^ atHigh c := by
  have h : ∀ x : Byte, atHigh x = (x.setWidth 16) <<< 8 := by
    intro x
    apply BitVec.eq_of_toNat_eq
    have := x.isLt
    rw [atHigh_toNat, BitVec.toNat_shiftLeft, BitVec.toNat_setWidth, Nat.shiftLeft_eq]
    omega
  rw [h, h, h]
  ext i hi
  by_cases h8 : i < 8 <;> simp [h8]

/-- A word is its two bytes. -/
theorem bytes_word (c : Word) : (hiByte c ++ loByte c : Word) = c := by
  apply BitVec.eq_of_toNat_eq
  rw [word_toNat, hiByte_toNat, loByte_toNat]
  omega

end Sys2Proof.Machine
end

