-- ==== Sys2Proof/Laws/Ops.lean ====
section
/-! SUPPORT. What the shared operations can do: reads after writes of the table memory, its canonical form, the three preconditions, the port. -/

namespace Sys2Proof.Machine

/-! The table memory. -/

@[simp] theorem Memory.read_nil (a : Nat) : Memory.read [] a = none := rfl

theorem Memory.read_cons (c : Nat × Word) (m : Memory) (a : Nat) :
    Memory.read (c :: m) a = if a = c.1 then some c.2 else Memory.read m a := by
  simp only [Memory.read, cond_eq_ite, Nat.beq_eq]

theorem Memory.write_cons (c : Nat × Word) (m : Memory) (a : Nat) (v : Word) :
    Memory.write (c :: m) a v =
      if a < c.1 then (a, v) :: c :: m else if a = c.1 then (a, v) :: m else c :: Memory.write m a v := by
  simp only [Memory.write, cond_eq_ite, Nat.beq_eq, Nat.blt_eq]

/-- A read after a write: the value written at its index, what was there before at every other. -/
theorem Memory.read_write (m : Memory) (a b : Nat) (v : Word) :
    (m.write a v).read b = if b = a then some v else m.read b := by
  induction m with
  | nil => simp [Memory.write, Memory.read_cons]
  | cons c m ih =>
    rw [Memory.write_cons]
    split
    · simp [Memory.read_cons]
    · split
      · rename_i h
        subst h
        by_cases hb : b = c.1 <;> simp [Memory.read_cons, hb]
      · rename_i h
        by_cases hb : b = a
        · subst hb; simp [Memory.read_cons, h, ih]
        · simp [Memory.read_cons, ih, hb]

/-- A read after a list of writes: `f` at every index of the list, what was there before elsewhere. -/
theorem Memory.read_writeAll (f : Nat → Word) (bs : List Nat) (m : Memory) (a : Nat) :
    (m.writeAll f bs).read a = if a ∈ bs then some (f a) else m.read a := by
  induction bs generalizing m with
  | nil => simp [Memory.writeAll]
  | cons b bs ih =>
    by_cases h : a ∈ bs
    · simp [Memory.writeAll, ih, h]
    · by_cases hb : a = b
      · subst hb; simp [Memory.writeAll, ih, h, Memory.read_write]
      · simp [Memory.writeAll, ih, h, hb, Memory.read_write]

/-- A lower bound of the indices may be lowered. -/
theorem Memory.wfFrom_mono {lo lo' : Nat} {m : Memory} (hle : lo' ≤ lo) (h : Memory.wfFrom lo m = true) :
    Memory.wfFrom lo' m = true := by
  cases m with
  | nil => rfl
  | cons c m =>
    simp only [Memory.wfFrom, Bool.and_eq_true, decide_eq_true_eq] at h ⊢
    exact ⟨⟨hle.trans h.1.1, h.1.2⟩, h.2⟩

theorem Memory.wfFrom_write {lo a : Nat} {m : Memory} (v : Word) (hlo : lo ≤ a) (ha : a < Config.tableDepth)
    (h : Memory.wfFrom lo m = true) : Memory.wfFrom lo (m.write a v) = true := by
  induction m generalizing lo with
  | nil => simp [Memory.write, Memory.wfFrom, hlo, ha]
  | cons c m ih =>
    simp only [Memory.wfFrom, Bool.and_eq_true, decide_eq_true_eq] at h
    rw [Memory.write_cons]
    split
    · rename_i hlt
      simp only [Memory.wfFrom, Bool.and_eq_true, decide_eq_true_eq]
      exact ⟨⟨hlo, ha⟩, ⟨hlt, h.1.2⟩, h.2⟩
    · split
      · rename_i heq
        simp only [Memory.wfFrom, Bool.and_eq_true, decide_eq_true_eq]
        exact ⟨⟨hlo, ha⟩, heq ▸ h.2⟩
      · simp only [Memory.wfFrom, Bool.and_eq_true, decide_eq_true_eq]
        exact ⟨h.1, ih (by omega) h.2⟩

/-- A write inside the index space keeps the canonical form. -/
theorem Memory.wf_write {a : Nat} {m : Memory} (v : Word) (ha : a < Config.tableDepth) (h : m.wf = true) :
    (m.write a v).wf = true := Memory.wfFrom_write v (Nat.zero_le a) ha h

/-- A list of writes inside the index space keeps the canonical form. -/
theorem Memory.wf_writeAll (f : Nat → Word) {bs : List Nat} {m : Memory} (hbs : ∀ b ∈ bs, b < Config.tableDepth)
    (h : m.wf = true) : (m.writeAll f bs).wf = true := by
  induction bs generalizing m with
  | nil => simpa [Memory.writeAll] using h
  | cons b bs ih =>
    rw [Memory.writeAll]
    exact ih (fun x hx => hbs x (List.mem_cons_of_mem b hx)) (Memory.wf_write _ (hbs b List.mem_cons_self) h)

@[simp] theorem Memory.wf_nil : Memory.wf [] = true := rfl

/-- The memory of the reset state is in canonical form. -/
theorem State.reset_wf : State.reset.table.wf = true := rfl

/-! The preconditions: what each can answer. -/

/-- With a table the command goes on. -/
theorem State.needTable_of_valid {s : State} (k : State → State) (h : s.tvalid = true) : s.needTable k = k s := by
  simp [State.needTable, h]

/-- Without a table the command is refused with ERR_NOTABLE. -/
theorem State.needTable_of_invalid {s : State} (k : State → State) (h : s.tvalid = false) :
    s.needTable k = s.respond .errNoTable 0 := by
  simp [State.needTable, State.raise, h]

/-- In a computation the command goes on. -/
theorem State.needActive_of_active {s : State} (k : State → State) (h : s.active = true) : s.needActive k = k s := by
  simp [State.needActive, h]

/-- Outside a computation the command is refused with ERR_IDLE. -/
theorem State.needActive_of_idle {s : State} (k : State → State) (h : s.active = false) :
    s.needActive k = s.respond .errIdle 0 := by
  simp [State.needActive, State.raise, h]

/-- Outside a computation the table may be replaced. -/
theorem State.needIdle_of_idle {s : State} (k : State → State) (h : s.active = false) : s.needIdle k = k s := by
  simp [State.needIdle, h]

/-- In a computation replacing the table is refused with ERR_ACTIVE. -/
theorem State.needIdle_of_active {s : State} (k : State → State) (h : s.active = true) :
    s.needIdle k = s.respond .errActive 0 := by
  simp [State.needIdle, State.raise, h]

/-! The port. -/

/-- Everything one step can do: nothing without an event, a reset, an illegal word refused, or a command executed. -/
theorem stepEvent_cases (s : State) :
    (s.events = [] ∧ stepEvent s = .next s)
    ∨ (∃ rest, s.events = .reset :: rest ∧ stepEvent s = .next (State.takeReset { s with events := rest }))
    ∨ (∃ w why rest, s.events = .command w :: rest ∧ decode w = .illegal why
        ∧ stepEvent s = .next (State.respond { s with events := rest } .errIllegal 0))
    ∨ (∃ w i rest, s.events = .command w :: rest ∧ decode w = .instr i
        ∧ stepEvent s = exec i { s with events := rest }) := by
  rcases h : s.events with _ | ⟨e, rest⟩
  · exact .inl ⟨rfl, by simp [stepEvent, State.nextEvent, h]⟩
  · cases e with
    | reset => exact .inr (.inl ⟨rest, rfl, by simp [stepEvent, State.nextEvent, handleEvent, h]⟩)
    | command w =>
      cases hd : decode w with
      | illegal why =>
        exact .inr (.inr (.inl ⟨w, why, rest, rfl, hd, by
          simp [stepEvent, State.nextEvent, handleEvent, acceptWord, h, hd, State.refuseIllegal, State.raise]⟩))
      | instr i =>
        exact .inr (.inr (.inr ⟨w, i, rest, rfl, hd, by
          simp [stepEvent, State.nextEvent, handleEvent, acceptWord, h, hd]⟩))

/-- A word of the port is offered ahead of the events that wait. -/
theorem State.offer_events {s : State} {w : Nat} (h : w < 1048576) :
    (s.offer w).events = .command (BitVec.ofNat 20 w) :: s.events := by
  simp [State.offer, h]

end Sys2Proof.Machine
end

