-- ==== Sys2Proof/Laws/PerInstr.lean ====
section
/-! SUPPORT. The per-instruction family: the encoder's word carries its row's fixed bits as spec/opcode_table.json gives them (mask and match),
and its operand where R41 to R45 put it. -/

namespace Sys2Proof.Laws

/-- The row's mask in spec/opcode_table.json. -/
def TableRow.mask : Instr → CmdWord
  | .gen _ => 0xF0000
  | .rdtab _ => 0xFFF00
  | .init _ => 0xF0000
  | .update _ => 0xFFF00
  | .final _ => 0xFFFFE

/-- The row's match in spec/opcode_table.json. -/
def TableRow.fixed : Instr → CmdWord
  | .gen _ => 0x10000
  | .rdtab _ => 0x20000
  | .init _ => 0x30000
  | .update _ => 0x40000
  | .final _ => 0x50000

/-- The word has its row's fixed bits. -/
def TableRow.Statement (i : Instr) : Prop := encode i &&& TableRow.mask i = TableRow.fixed i

/-- A low part that the mask clears leaves the fixed bits. -/
theorem TableRow.append_mask {n m k : Nat} (op : BitVec n) (arg : BitVec m) (mo : BitVec n) (h : n + m = k) :
    ((op ++ arg).cast h) &&& ((mo ++ (0 : BitVec m)).cast h) = ((op &&& mo) ++ (0 : BitVec m)).cast h := by
  subst h
  ext i hi
  by_cases hlt : i < m <;> simp [BitVec.getElem_append, hlt]

theorem TableRow.gen (p : Word) : TableRow.Statement (.gen p) :=
  TableRow.append_mask (1 : BitVec 4) p 0xF rfl

theorem TableRow.init (v : Word) : TableRow.Statement (.init v) :=
  TableRow.append_mask (3 : BitVec 4) v 0xF rfl

theorem TableRow.rdtab (i : Byte) : TableRow.Statement (.rdtab i) := by
  have h := TableRow.append_mask ((2 : BitVec 4) ++ (0 : Byte)) i 0xFFF (k := 20) rfl
  rw [BitVec.append_assoc] at h
  exact h

theorem TableRow.update (b : Byte) : TableRow.Statement (.update b) := by
  have h := TableRow.append_mask ((4 : BitVec 4) ++ (0 : Byte)) b 0xFFF (k := 20) rfl
  rw [BitVec.append_assoc] at h
  exact h

theorem TableRow.final (n : Bool) : TableRow.Statement (.final n) := by
  cases n <;> rfl

end Sys2Proof.Laws
end

