-- ==== Sys2Proof/Laws/Port.lean ====
section
/-! SUPPORT. What the internal steps of a command can do, and what one cycle of the port can do. -/

namespace Sys2Proof.Machine

/-! Internal steps. -/

@[simp] theorem Job.run_zero (x : Job × State) : Job.run 0 x = x := rfl

theorem Job.run_succ (n : Nat) (j : Job) (s : State) : Job.run (n + 1) (j, s) = Job.run n (j.advance s) := rfl

/-- Steps may be cut anywhere. -/
theorem Job.run_add (m n : Nat) (x : Job × State) : Job.run (m + n) x = Job.run n (Job.run m x) := by
  induction m generalizing x with
  | zero => simp
  | succ m ih => rw [Nat.succ_add]; exact ih _

/-- A complete effect stays as it is. -/
@[simp] theorem Job.run_done (n : Nat) (r : Response) (s : State) : Job.run n (.done r, s) = (.done r, s) := by
  induction n with
  | zero => rfl
  | succ n ih => exact ih

/-- A word without stages does nothing before its last cycle. -/
@[simp] theorem Job.run_whole (n : Nat) (w : CmdWord) (s : State) : Job.run n (.whole w, s) = (.whole w, s) := by
  induction n with
  | zero => rfl
  | succ n ih => exact ih

/-- The three stages of an UPDATE are the update function of R66. -/
theorem Job.run_index (n : Nat) (b : Byte) (s : State) :
    Job.run (n + 3) (.index b, s) = (.done ⟨.ok, 0⟩, s.setCrc (upd s.crcValue b s.lookup)) := by
  rw [Nat.add_comm, Job.run_add]
  exact Job.run_done n _ _

/-- A round of the generator writes no state. -/
theorem Job.advance_round {g : Generator} (s : State) (h : g.k < Config.roundsPerEntry) :
    (Job.generating g).advance s = (.generating { g with w := crcRound g.w g.p, k := g.k + 1 }, s) := by
  simp [Job.advance, Generator.advance, h]

/-- A store of the generator that is not the last writes one entry and begins the next. -/
theorem Job.advance_store {g : Generator} (s : State) (h : ¬ g.k < Config.roundsPerEntry) (hb : g.b ≠ 255) :
    (Job.generating g).advance s
      = (.generating { g with b := g.b + 1, k := 0, w := atHigh (g.b + 1) }, { s with table := s.table.write g.b.toNat g.w }) := by
  simp only [Job.advance, Generator.advance, h, hb, if_false]

/-- The store of entry 255 validates the table and ends the generator. -/
theorem Job.advance_lastStore {g : Generator} (s : State) (h : ¬ g.k < Config.roundsPerEntry) (hb : g.b = 255) :
    (Job.generating g).advance s = (.done ⟨.ok, 0⟩, { s with table := s.table.write g.b.toNat g.w, tvalid := true }) := by
  simp only [Job.advance, Generator.advance, h, hb, if_false, if_true]

theorem Job.maxSteps_eq : Job.maxSteps = 2304 := by
  unfold Job.maxSteps; rfl

/-! Cycles. -/

@[simp] theorem PortState.work_idle {c : PortState} (h : c.phase = .idle) : c.work = (none, c) := by
  simp [PortState.work, h]

/-- A cycle before the last: as many steps as the pace gives, and no response. -/
theorem PortState.work_before {c : PortState} {n : Nat} {j : Job} (h : c.phase = .executing (n + 1) j) :
    c.work = (none, (c.withCore (Job.run (Config.stepsInCycle c.accepted n) (j, c.core)).2).enter
      (.executing n (Job.run (Config.stepsInCycle c.accepted n) (j, c.core)).1)) := by
  unfold PortState.work
  rw [h]

/-- The last cycle: whatever `Job.maxSteps` steps and the delivery leave. -/
theorem PortState.work_last {c : PortState} {j : Job} {t : State} {r : Option RspWord} (h : c.phase = .executing 0 j)
    (hd : (Job.run Job.maxSteps (j, c.core)).1.deliver (Job.run Job.maxSteps (j, c.core)).2 = (r, t)) :
    c.work = (r, (c.withCore t).enter .idle) := by
  unfold PortState.work
  rw [h]
  simp only [hd]

theorem PortState.run_append (xs ys : List PortIn) (c : PortState) :
    PortState.run (xs ++ ys) c
      = ((PortState.run xs c).1 ++ (PortState.run ys (PortState.run xs c).2).1, (PortState.run ys (PortState.run xs c).2).2) := by
  induction xs generalizing c with
  | nil => rfl
  | cons x xs ih => simp [PortState.run, ih]

/-- Everything a cycle can do: reset, an idle cycle with or without an acceptance, or one cycle of the command in execution. -/
theorem PortState.cycle_cases (c : PortState) (i : PortIn) :
    (i.rst = true ∧ c.cycle i = (⟨false, none⟩, (c.withCore c.core.takeReset).enter .idle))
    ∨ (i.rst = false ∧ c.phase = .idle ∧ c.cycle i = (⟨true, none⟩, if i.cmdValid then c.accept i.cmdWord else c))
    ∨ (i.rst = false ∧ c.phase ≠ .idle ∧ c.cycle i = (⟨false, c.work.1⟩, c.work.2)) := by
  cases h : i.rst
  · by_cases hp : c.phase = .idle <;> simp [PortState.cycle, h, hp]
  · simp [PortState.cycle, h]

end Sys2Proof.Machine
end

