-- ==== Sys2Proof/Laws/State.lean ====
section
/-! SUPPORT. What each named update does to each field of State: one lemma per field per update, true by rfl. -/

namespace Sys2Proof.Machine

@[simp] theorem State.respond_table (s : State) (e : Status) (d : Word) : (s.respond e d).table = s.table := rfl
@[simp] theorem State.respond_tvalid (s : State) (e : Status) (d : Word) : (s.respond e d).tvalid = s.tvalid := rfl
@[simp] theorem State.respond_crc (s : State) (e : Status) (d : Word) : (s.respond e d).crc = s.crc := rfl
@[simp] theorem State.respond_active (s : State) (e : Status) (d : Word) : (s.respond e d).active = s.active := rfl
@[simp] theorem State.respond_events (s : State) (e : Status) (d : Word) : (s.respond e d).events = s.events := rfl
@[simp] theorem State.respond_responses (s : State) (e : Status) (d : Word) :
    (s.respond e d).responses = s.responses ++ [⟨e, d⟩] := rfl

@[simp] theorem State.respondDone_eq (s : State) : s.respondDone = s.respond .ok 0 := rfl
@[simp] theorem State.raise_eq (s : State) (e : Status) : s.raise e = s.respond e 0 := rfl
@[simp] theorem State.refuseIllegal_eq (s : State) : s.refuseIllegal = s.respond .errIllegal 0 := rfl

@[simp] theorem State.writeEntries_table (s : State) (f : Nat → Word) (bs : List Nat) :
    (s.writeEntries f bs).table = s.table.writeAll f bs := rfl
@[simp] theorem State.writeEntries_tvalid (s : State) (f : Nat → Word) (bs : List Nat) : (s.writeEntries f bs).tvalid = s.tvalid := rfl
@[simp] theorem State.writeEntries_crc (s : State) (f : Nat → Word) (bs : List Nat) : (s.writeEntries f bs).crc = s.crc := rfl
@[simp] theorem State.writeEntries_active (s : State) (f : Nat → Word) (bs : List Nat) : (s.writeEntries f bs).active = s.active := rfl
@[simp] theorem State.writeEntries_events (s : State) (f : Nat → Word) (bs : List Nat) : (s.writeEntries f bs).events = s.events := rfl
@[simp] theorem State.writeEntries_responses (s : State) (f : Nat → Word) (bs : List Nat) :
    (s.writeEntries f bs).responses = s.responses := rfl

@[simp] theorem State.setTvalid_table (s : State) (v : Bool) : (s.setTvalid v).table = s.table := rfl
@[simp] theorem State.setTvalid_tvalid (s : State) (v : Bool) : (s.setTvalid v).tvalid = v := rfl
@[simp] theorem State.setTvalid_crc (s : State) (v : Bool) : (s.setTvalid v).crc = s.crc := rfl
@[simp] theorem State.setTvalid_active (s : State) (v : Bool) : (s.setTvalid v).active = s.active := rfl
@[simp] theorem State.setTvalid_events (s : State) (v : Bool) : (s.setTvalid v).events = s.events := rfl
@[simp] theorem State.setTvalid_responses (s : State) (v : Bool) : (s.setTvalid v).responses = s.responses := rfl

@[simp] theorem State.setCrc_table (s : State) (v : Word) : (s.setCrc v).table = s.table := rfl
@[simp] theorem State.setCrc_tvalid (s : State) (v : Word) : (s.setCrc v).tvalid = s.tvalid := rfl
@[simp] theorem State.setCrc_crc (s : State) (v : Word) : (s.setCrc v).crc = some v := rfl
@[simp] theorem State.setCrc_active (s : State) (v : Word) : (s.setCrc v).active = s.active := rfl
@[simp] theorem State.setCrc_events (s : State) (v : Word) : (s.setCrc v).events = s.events := rfl
@[simp] theorem State.setCrc_responses (s : State) (v : Word) : (s.setCrc v).responses = s.responses := rfl

@[simp] theorem State.dropCrc_table (s : State) : s.dropCrc.table = s.table := rfl
@[simp] theorem State.dropCrc_tvalid (s : State) : s.dropCrc.tvalid = s.tvalid := rfl
@[simp] theorem State.dropCrc_crc (s : State) : s.dropCrc.crc = none := rfl
@[simp] theorem State.dropCrc_active (s : State) : s.dropCrc.active = s.active := rfl
@[simp] theorem State.dropCrc_events (s : State) : s.dropCrc.events = s.events := rfl
@[simp] theorem State.dropCrc_responses (s : State) : s.dropCrc.responses = s.responses := rfl

@[simp] theorem State.setActive_table (s : State) (v : Bool) : (s.setActive v).table = s.table := rfl
@[simp] theorem State.setActive_tvalid (s : State) (v : Bool) : (s.setActive v).tvalid = s.tvalid := rfl
@[simp] theorem State.setActive_crc (s : State) (v : Bool) : (s.setActive v).crc = s.crc := rfl
@[simp] theorem State.setActive_active (s : State) (v : Bool) : (s.setActive v).active = v := rfl
@[simp] theorem State.setActive_events (s : State) (v : Bool) : (s.setActive v).events = s.events := rfl
@[simp] theorem State.setActive_responses (s : State) (v : Bool) : (s.setActive v).responses = s.responses := rfl

@[simp] theorem State.takeReset_table (s : State) : s.takeReset.table = [] := rfl
@[simp] theorem State.takeReset_tvalid (s : State) : s.takeReset.tvalid = false := rfl
@[simp] theorem State.takeReset_crc (s : State) : s.takeReset.crc = none := rfl
@[simp] theorem State.takeReset_active (s : State) : s.takeReset.active = false := rfl
@[simp] theorem State.takeReset_events (s : State) : s.takeReset.events = s.events := rfl
@[simp] theorem State.takeReset_responses (s : State) : s.takeReset.responses = s.responses := rfl

end Sys2Proof.Machine
end

