-- ==== Sys2Proof/Tests/Slice0.lean ====
section
/-! SUPPORT. The model's own tests. Expected values are the spec's: V<n> and P<n> are vectors and programs of 95_test_vectors.md. After them, for each
statement with hypotheses, states and operands that meet them. -/

namespace Sys2Proof.Tests

open Sys2Proof.Machine

/-! Helpers. -/

/-- The state of a next outcome. -/
def next? : Host.Outcome State Fault Refusal → Option State
  | .next t => some t
  | .fault _ => none
  | .refused _ => none

/-- `(TVALID, ACTIVE, CRC)` as the vectors write states. -/
def view (s : State) : Bool × Bool × Option Word := (s.tvalid, s.active, s.crc)

/-- A state with a few table entries. -/
def st (table : Memory) (tvalid : Bool) (crc : Option Word) (active : Bool) : State :=
  { State.reset with table := table, tvalid := tvalid, crc := crc, active := active }

/-! WellFormed: an ill-formed line for each check, which the check refuses (R50, R52). -/

theorem test_wf_gen_range : (Line.gen (some 65536)).wellFormed = false := by decide
theorem test_wf_rdtab_range : (Line.rdtab 256).wellFormed = false := by decide
theorem test_wf_init_range : (Line.init (some 65536)).wellFormed = false := by decide
theorem test_wf_update_range : (Line.update 0x131).wellFormed = false := by decide
theorem test_wf_final_range : (Line.final (some 2)).wellFormed = false := by decide
theorem test_wf_raw_range : (Line.raw 0x100000).wellFormed = false := by decide
theorem test_wf_updates_byte : (Line.updates (.bytes [1, 256])).wellFormed = false := by decide
theorem test_wf_updates_none : (Line.updates (.bytes [])).wellFormed = false := by decide
theorem test_wf_updates_ascii : (Line.updates (.text ['é'])).wellFormed = false := by decide
theorem test_wf_compute_initial : (Line.compute (.bytes [1]) (some 65536) none).wellFormed = false := by decide
theorem test_wf_compute_flag : (Line.compute (.bytes [1]) (some 0) (some 2)).wellFormed = false := by decide
theorem test_wf_compute_order : (Line.compute (.bytes [1]) none (some 1)).wellFormed = false := by decide

/-! Decoding: words of section 5 of the vectors, each refusal beside the nearest accepted word. -/

theorem test_decode_gen : decode 0x11021 = .instr (.gen 0x1021) ∧ decode 0x1FFFF = .instr (.gen 0xFFFF) := by decide
theorem test_decode_rdtab : decode 0x200FF = .instr (.rdtab 0xFF)
    ∧ decode 0x20100 = .illegal (.reservedBits 2 0x0100) ∧ decode 0x28000 = .illegal (.reservedBits 2 0x8000) := by decide
theorem test_decode_init : decode 0x3FFFF = .instr (.init 0xFFFF) ∧ decode 0x30000 = .instr (.init 0) := by decide
theorem test_decode_update : decode 0x400FF = .instr (.update 0xFF)
    ∧ decode 0x40131 = .illegal (.reservedBits 4 0x0131) ∧ decode 0x4FFFF = .illegal (.reservedBits 4 0xFFFF) := by decide
theorem test_decode_final : decode 0x50000 = .instr (.final false) ∧ decode 0x50001 = .instr (.final true)
    ∧ decode 0x50003 = .illegal (.reservedBits 5 3) ∧ decode 0x58000 = .illegal (.reservedBits 5 0x8000) := by decide
theorem test_decode_opcodes : decode 0x00000 = .illegal (.opcode 0) ∧ decode 0x01021 = .illegal (.opcode 0)
    ∧ decode 0x60000 = .illegal (.opcode 6) ∧ decode 0xFFFFF = .illegal (.opcode 15) := by decide
theorem test_decode_table_word : decodeTableWord 24 0x40031 = some (.update 0x31) ∧ decodeTableWord 20 0x50002 = none
    ∧ decodeTableWord 24 0x150001 = none := by decide
theorem test_encode_words : encode (.gen 0x1021) = 0x11021 ∧ encode (.rdtab 0x80) = 0x20080 ∧ encode (.init 0xFFFF) = 0x3FFFF
    ∧ encode (.update 0x31) = 0x40031 ∧ encode (.final true) = 0x50001 := by decide

/-! One step of each command. -/

/-- V9, P1 line 1: the table of 0x1021, from reset. -/
theorem test_gen_from_reset : (next? (exec (.gen 0x1021) State.reset)).map
    (fun t => [t.table.read 0x01, t.table.read 0x80, t.table.read 0xFF]) = some [some 0x1021, some 0x9188, some 0x1EF0] := by decide +kernel

/-- P3 line 15: GEN in a computation is refused. -/
theorem test_gen_in_computation :
    next? (exec (.gen 0x1021) (st [(1, 0x8005)] true (some 0x8005) true))
      = some ((st [(1, 0x8005)] true (some 0x8005) true).respond .errActive 0) := by decide

/-- P1 line 4. -/
theorem test_rdtab_entry : (next? (exec (.rdtab 0x80) (st [(0x80, 0x9188)] true none false))).map
    (fun t => (view t, t.responses.map Response.word)) = some ((true, false, none), [0x09188]) := by decide

/-- P3 line 1. -/
theorem test_rdtab_without_table : (next? (exec (.rdtab 0) State.reset)).map (fun t => t.responses.map Response.word)
    = some [0x20000] := by decide

/-- P5 line 4: INIT in a computation restarts it. -/
theorem test_init_restarts : (next? (exec (.init 0x1D0F) (st [] true (some 0xB915) true))).map
    (fun t => (view t, t.responses.map Response.word)) = some ((true, true, some 0x1D0F), [0x00000]) := by decide

/-- P3 line 2. -/
theorem test_init_without_table : (next? (exec (.init 0xFFFF) State.reset)).map (fun t => (view t, t.responses.map Response.word))
    = some ((false, false, none), [0x20000]) := by decide

/-- V16, first row. -/
theorem test_update_folds : (next? (exec (.update 0x31) (st [(0xCE, 0x3882)] true (some 0xFFFF) true))).map
    (fun t => (view t, t.responses.map Response.word)) = some ((true, true, some 0xC782), [0x00000]) := by decide

/-- P3 line 19. -/
theorem test_update_when_idle : (next? (exec (.update 0x31) (st [] true none false))).map
    (fun t => (view t, t.responses.map Response.word)) = some ((true, false, none), [0x30000]) := by decide

/-- P2 line 13. -/
theorem test_final_inverts : (next? (exec (.final true) (st [] true (some 0x29B1) true))).map
    (fun t => (view t, t.responses.map Response.word)) = some ((true, false, none), [0x0D64E]) := by decide

/-- P3 line 18: a second FINAL. -/
theorem test_final_twice : (next? (exec (.final false) (st [] true none false))).map
    (fun t => (view t, t.responses.map Response.word)) = some ((true, false, none), [0x30000]) := by decide

/-- P3 line 8: decode comes before the state. -/
theorem test_illegal_before_state : (next? (step (State.reset.withFetchWord 24 0x40131))).map
    (fun t => (view t, t.events, t.responses.map Response.word)) = some ((false, false, none), [], [0x10000]) := by decide

/-- P4 line 4: reset in a computation. -/
theorem test_reset_event : (next? (step { st [(1, 0x1021)] true (some 0xC782) true with events := [.reset] }))
    = some State.reset := by decide

/-- The word the host places is the one the next step runs (V5 word 0x31234, P4 line 10). -/
theorem test_fetch_word : (next? (step ((st [] true none false).withFetchWord 24 0x31234))).map view
    = some (true, true, some 0x1234) := by decide

/-! The functions. -/

/-- V12. -/
theorem test_round : crcRound 0xFFFF 0x1021 = 0xEFDF ∧ crcRound 0x7FFF 0x1021 = 0xFFFE ∧ crcRound 0xFFFF 0xFFFF = 0x0001
    ∧ crcRound 0x8000 0x0000 = 0x0000 := by decide
/-- V11, V13. -/
theorem test_entries : tableEntry 0x31 0x1021 = 0x2672 ∧ tableEntry 0xA5 0x1021 = 0xE54F ∧ tableEntry 0xFF 0xFFFF = 0xFF80
    ∧ tableEntry 0x7F 0x8408 = 0x52A0 ∧ tableEntry 0x80 0xA001 = 0xA0E9 := by decide
/-- V17. -/
theorem test_updates : upd 0x1234 0xFF (genTable 0x1021) = 0x1883 ∧ upd 0xABCD 0xAB (genTable 0x1021) = 0xCD00
    ∧ upd 0x8005 0x02 (genTable 0x8005) = 0x060C ∧ upd 0xFFFF 0x80 (genTable 0x1021) = 0x7078 := by decide
/-- V1, the source's own example. -/
theorem test_known_answer : compute [0x31, 0x32, 0x33, 0x34, 0x35, 0x36, 0x37, 0x38, 0x39] (genTable 0x1021) 0xFFFF false = 0x29B1 := by
  decide +kernel
/-- V19, V22. -/
theorem test_computations : compute [0x41, 0x42] (genTable 0x1021) 0xFFFF false = 0x4B74
    ∧ compute [0x32, 0x31] (genTable 0x1021) 0xFFFF false = 0x588A ∧ compute [0x41] (genTable 0x1021) 0xFFFF true = 0x46EA := by decide +kernel

/-! The notation. -/

theorem test_read_update : readLine ['U', 'P', 'D', 'A', 'T', 'E', ' ', '0', 'x', '3', '1', ' ', ';', 'a'] = some (.update 0x31) := by decide
theorem test_read_gen_default : (readLine ['G', 'E', 'N']).bind assembleLine = some [0x11021] := by decide
/-- P2 line 3-6. -/
theorem test_read_updates_text : (readLine ['U', 'P', 'D', 'A', 'T', 'E', 'S', ' ', '\x22', '1', '2', '\x22']).bind assembleLine
    = some [0x40031, 0x40032] := by decide
theorem test_read_compute : (readLine ['C', 'O', 'M', 'P', 'U', 'T', 'E', ' ', '1', ' ', '2', ',', ' ', '0', ',', '1']).bind assembleLine
    = some [0x30000, 0x40001, 0x40002, 0x50001] := by decide
theorem test_read_out_of_range : (readLine ['U', 'P', 'D', 'A', 'T', 'E', ' ', '3', '0', '0']).bind assembleLine = none := by decide
theorem test_assemble_lines : assemble [.gen none, .blank, .raw 0xF1234] = some [0x11021, 0xF1234] := by decide
theorem test_response_text : responseText true ⟨.ok, 0x29B1⟩ = ['-', '>', ' ', 'O', 'K', ' ', '0', 'x', '2', '9', 'B', '1']
    ∧ responseText false ⟨.ok, 0⟩ = ['-', '>', ' ', 'O', 'K']
    ∧ responseText true ⟨.errIdle, 0⟩ = ['-', '>', ' ', 'E', 'R', 'R', '_', 'I', 'D', 'L', 'E'] := by decide
theorem test_macro_response : macroResponse [⟨.ok, 0⟩, ⟨.ok, 0⟩, ⟨.ok, 0x29B1⟩] = some ⟨.ok, 0x29B1⟩
    ∧ macroResponse [⟨.errNoTable, 0⟩, ⟨.errIdle, 0⟩] = none := by decide
theorem test_file_not_found : fileCommands .notFound 0xFFFF false = [] := by decide
theorem test_file_bytes : fileCommands (.complete [1, 2]) 0 true = [.init 0, .update 1, .update 2, .final true] := by decide

/-! The cycle-level layer. -/

/-- A reset cycle drives neither ready nor a response, whatever is in execution (R100, R102). -/
theorem test_port_reset : ({ PortState.reset with phase := .executing 5 (.generating (.start 0x1021)) }.cycle ⟨true, true, 0x11021⟩)
    = (⟨false, none⟩, PortState.reset) := by decide
/-- The three stages of UPDATE 0x31 from register 0 (P2 line 19: 0x2672 in turn). -/
theorem test_update_stages : ((Job.run 3 (.index 0x31, st [(0x31, 0x2672)] true (some 0) true)).1,
    (Job.run 3 (.index 0x31, st [(0x31, 0x2672)] true (some 0) true)).2.crc) = (.done ⟨.ok, 0⟩, some 0x2672) := by decide
/-- The generator's first two rounds for byte 0x80 (V4). -/
theorem test_generator_rounds : (Job.run 2 (.generating { p := 0x1021, b := 0x80, k := 0, w := 0x8000 }, State.reset)).1
    = .generating { p := 0x1021, b := 0x80, k := 2, w := 0x2042 } := by decide

/-! Witnesses: for each statement with hypotheses, a state and operands that meet them. -/

/-- The table of polynomial 0 (V8: 256 zeros). -/
def zeroTable : Memory := (List.range 256).map fun b => (b, 0)
/-- After GEN 0: a table, no computation. -/
def ready : State := st zeroTable true none false
/-- In a computation. -/
def busy : State := st zeroTable true (some 0x1234) true
/-- The state with one word to come. -/
def facingWord (s : State) (w : CmdWord) : State := { s with events := [.command w] }

theorem zeroTable_reads : ∀ i : Byte, zeroTable.read i.toNat = some 0 := by decide +kernel
theorem zeroTable_is_generated : ∀ b : Byte, zeroTable.read b.toNat = some (tableEntry b 0) := by decide +kernel
theorem zeroTable_wf : zeroTable.wf = true := by decide +kernel

theorem witness_ResetEventGivesResetState :
    ({ busy with events := [.reset] }).events = [.reset] ∧ ({ busy with events := [.reset, .reset] }).events = .reset :: .reset :: []
      ∧ ∃ t, (facingWord busy 0).events = .command 0 :: [] ∧ step (facingWord busy 0) = .next t ∧ (facingWord busy 0).tvalid = true :=
  ⟨rfl, rfl, _, rfl, rfl, rfl⟩
theorem witness_IdlePortChangesNothing : busy.events = [] := rfl
theorem witness_StepRunsDecodedCommand :
    (facingWord busy 0x40031).events = .command 0x40031 :: [] ∧ decode 0x40031 = .instr (.update 0x31) := ⟨rfl, by decide⟩
theorem witness_illegal_event : (facingWord busy 0x40131).events = .command 0x40131 :: [] := rfl
theorem witness_illegal_opcodes : IllegalWord 0x00000 ∧ IllegalWord 0x60000 ∧ ¬ IllegalWord 0x1FFFF := by decide
theorem witness_illegal_bytes : IllegalWord 0x20100 ∧ IllegalWord 0x40131 ∧ ¬ IllegalWord 0x400FF := by decide
theorem witness_illegal_flags : IllegalWord 0x50002 ∧ IllegalWord 0x58000 ∧ ¬ IllegalWord 0x50001 := by decide
theorem witness_DecodedWordIsItsEncoding : decode 0x50001 = .instr (.final true) := by decide
theorem witness_UpdateIsLinear : ([1, 2] : List Byte).length = ([3, 4] : List Byte).length ∧ (0xFFFF : Word) ^^^ 0 = 0xF0F0 ^^^ 0x0F0F
    ∧ 2 ≤ ([1, 2] : List Byte).length := by decide
/-- Both cases of GEN, RDTAB, INIT, UPDATE and FINAL, and of their frames: the two flags, each at 0 and at 1. -/
theorem witness_commands : ready.active = false ∧ busy.active = true ∧ ready.tvalid = true ∧ State.reset.tvalid = false
    ∧ busy.crc = some 0x1234 ∧ (∀ i : Byte, busy.table.read i.toNat = some ((fun _ => 0 : Byte → Word) i)) :=
  ⟨rfl, rfl, rfl, rfl, rfl, zeroTable_reads⟩
theorem witness_GenTableIsInByteOrder : ready.active = false ∧ ready.table.wf = true := ⟨rfl, zeroTable_wf⟩
theorem witness_frames : (∃ t, exec (.rdtab 255) busy = .next t) ∧ (∃ t, exec (.init 1) busy = .next t) ∧ (∃ t, exec (.update 1) busy = .next t)
    ∧ (∃ t, exec (.final true) busy = .next t) ∧ (∃ t, exec (.gen 1) busy = .next t) ∧ (∃ t, exec (.gen 1) ready = .next t) :=
  ⟨⟨_, rfl⟩, ⟨_, rfl⟩, ⟨_, rfl⟩, ⟨_, rfl⟩, ⟨_, rfl⟩, ⟨_, rfl⟩⟩
/-- For the clauses about two commands in a row, a word with a reserved bit set, and a table with `TABLE[0]` = 0. -/
theorem witness_clauses : (∃ t, ready.active = false ∧ exec (.gen 0x1021) ready = .next t) ∧ (∃ t, ready.tvalid = true ∧ exec (.init 1) ready = .next t)
    ∧ (∃ t, busy.active = true ∧ exec (.final true) busy = .next t)
    ∧ ((0x20100 : CmdWord).toNat / 65536 = 2 ∧ (0x20100 : CmdWord).toNat % 65536 / 256 ≠ 0)
    ∧ ((0x4FF00 : CmdWord).toNat / 65536 = 4 ∧ (0x4FF00 : CmdWord).toNat % 65536 / 256 ≠ 0)
    ∧ ((0x50002 : CmdWord).toNat / 65536 = 5 ∧ (0x50002 : CmdWord).toNat % 65536 / 2 ≠ 0) ∧ genTable 0x1021 0 = 0 :=
  ⟨⟨_, rfl, rfl⟩, ⟨_, rfl, rfl⟩, ⟨_, rfl, rfl⟩, by decide, by decide, by decide, by decide⟩
/-- A command answered OK, one that is refused, and one that returns data. -/
theorem witness_responses : (facingWord busy 0x50001).events = .command 0x50001 :: []
    ∧ (next? (step (facingWord busy 0x50001))).map (·.responses) = some [⟨.ok, 0xEDCB⟩]
    ∧ (next? (step (facingWord ready 0x50001))).map (·.responses) = some [⟨.errIdle, 0⟩] := by decide +kernel
theorem witness_OnlyGenIsUsefulAfterReset : State.reset.tvalid = false ∧ State.reset.active = false
    ∧ (facingWord State.reset (encode (.gen 0x1021))).events = .command (encode (.gen 0x1021)) :: []
    ∧ (facingWord State.reset (encode (.rdtab 0))).events = .command (encode (.rdtab 0)) :: []
    ∧ (facingWord State.reset (encode (.init 0))).events = .command (encode (.init 0)) :: []
    ∧ (facingWord State.reset (encode (.update 0))).events = .command (encode (.update 0)) :: []
    ∧ (facingWord State.reset (encode (.final true))).events = .command (encode (.final true)) :: []
    ∧ IllegalWord 0 ∧ (facingWord State.reset 0).events = .command 0 :: [] :=
  ⟨rfl, rfl, rfl, rfl, rfl, rfl, rfl, .inl (.inl rfl), rfl⟩
theorem busy_inv : busy.Inv := ⟨zeroTable_wf, fun _ => ⟨0, zeroTable_is_generated⟩, fun h => absurd h (by decide), rfl, fun _ => rfl⟩
theorem witness_StepKeepsStateInvariant : (facingWord busy 0x40031).Inv ∧ ∃ t, step (facingWord busy 0x40031) = .next t :=
  ⟨⟨busy_inv.wf, busy_inv.generated, busy_inv.empty, busy_inv.crc, busy_inv.active⟩, _, rfl⟩
theorem witness_ActiveImpliesTableValid :
    ∃ t, runSteps 2 (State.reset.facing [.command 0x11021, .command 0x3FFFF]) = .next t ∧ t.active = true := ⟨_, rfl, rfl⟩
/-- A GEN that changes the table, and a reset that does. -/
theorem witness_TableChangesOnlyByGenOrReset :
    (∃ t, step (facingWord ready 0x11021) = .next t ∧ t.table ≠ ready.table)
      ∧ ∃ t, step { ready with events := [.reset] } = .next t ∧ t.table ≠ ready.table := by
  constructor
  · refine ⟨_, rfl, fun h => ?_⟩
    have hr := congrArg (fun m : Memory => m.read 1) h
    rw [show ready.table.read 1 = some 0 from zeroTable_reads 1] at hr
    exact absurd ((Memory.read_writeAll _ _ _ _).symm.trans hr) (by decide +kernel)
  · exact ⟨_, rfl, by decide +kernel⟩
/-- Each flag set and cleared: GEN, reset, INIT, FINAL. -/
theorem witness_FlagsChangeOnlyByTheirCommands :
    (∃ t, step (facingWord State.reset 0x11021) = .next t ∧ t.tvalid = true)
      ∧ (∃ t, step { busy with events := [.reset] } = .next t ∧ t.tvalid = false ∧ t.active = false)
      ∧ (∃ t, step (facingWord ready 0x3FFFF) = .next t ∧ t.active = true)
      ∧ ∃ t, step (facingWord busy 0x50000) = .next t ∧ t.active = false :=
  ⟨⟨_, rfl, rfl⟩, ⟨_, rfl, rfl, rfl⟩, ⟨_, rfl, rfl⟩, ⟨_, rfl, rfl⟩⟩
/-- Two states that differ, and that no response can tell apart. -/
theorem witness_UnusedContentsNeverShow :
    (facingWord (st [(7, 7)] false (some 1) false) 0x20007).LooksLike (facingWord State.reset 0x20007)
      ∧ (facingWord (st [(7, 7)] false (some 1) false) 0x20007) ≠ facingWord State.reset 0x20007
      ∧ (∃ t, step (facingWord (st [(7, 7)] false (some 1) false) 0x20007) = .next t)
      ∧ ∃ t, step (facingWord State.reset 0x20007) = .next t :=
  ⟨⟨rfl, rfl, rfl, rfl, by simp [facingWord, st], by simp [facingWord, st]⟩, by decide, ⟨_, rfl⟩, ⟨_, rfl⟩⟩
/-- For ComputeIsInitUpdatesFinal, EmptyInputReturnsInitial, FileProcedureIsChunkInvariant and RegisterDependsOnlyOnBytes. -/
theorem witness_sequences : ready.tvalid = true ∧ busy.tvalid = true ∧ busy.active = true ∧ busy.crc = some 0x1234
    ∧ (∀ i : Byte, ready.table.read i.toNat = some ((fun _ => 0 : Byte → Word) i))
    ∧ ∀ i ∈ [Instr.update 1, .rdtab 2, .update 3], midComputation i = true := ⟨rfl, rfl, rfl, rfl, zeroTable_reads, by decide⟩
theorem witness_session : IsSession [.gen 0x1021, .rdtab 1, .init 0, .update 1, .rdtab 2, .final true, .gen 0] :=
  ⟨_, _, rfl, .rdtab _ (.computation 0 (.update _ (.rdtab _ (.final _))) (.gen _ .nil))⟩
/-- A sequence that answers OK throughout and is only the beginning of a session. -/
theorem witness_session_beginning : ∃ t, runSteps 2 (State.reset.facing (commandEvents [.gen 0, .init 0])) = .next t
    ∧ t.responses = State.reset.responses ++ [⟨.ok, 0⟩, ⟨.ok, 0⟩] := ⟨_, rfl, rfl⟩
/-- The bounds of the operands of lines, on both sides. -/
theorem witness_LinesDenoteTheirWords : 65535 < 65536 ∧ 65536 ≤ 65536 ∧ 255 < 256 ∧ 256 ≤ 256 ∧ 2 ≤ 2 ∧ 1048576 ≤ 1048576 := by decide
theorem witness_ComputeMacroExpands : ([0x31, 0x32] : List Byte) ≠ [] ∧ (∀ c ∈ ['1', '2'], c.toNat < 128) ∧ ∀ c ∈ ([] : List Char), c.toNat < 128 := by simp [show '1'.toNat = 49 from rfl, show '2'.toNat = 50 from rfl]
theorem witness_MacroResponseIsTheLast : (∀ q ∈ ([⟨.ok, 0⟩, ⟨.ok, 1⟩] : List Response), q.status = .ok)
    ∧ (⟨.errNoTable, 0⟩ : Response) ∈ ([⟨.errNoTable, 0⟩] : List Response) ∧ Status.errNoTable ≠ .ok := by decide
/-- A reset cycle in a GEN, a ready cycle and one that is not, and quiet inputs of both lengths. -/
theorem witness_port : (⟨true, false, 0⟩ : PortIn).rst = true ∧ (⟨false, false, 0⟩ : PortIn).rst = false
    ∧ PortState.reset.phase = .idle ∧ PortState.reset.core.active = false
    ∧ (PortState.reset.cycle ⟨false, true, 0x11021⟩).1.cmdReady = true
    ∧ ({ PortState.reset with phase := .executing 0 (.index 1) }.cycle ⟨false, true, 0x11021⟩).1.cmdReady = false
    ∧ State.reset.tvalid = false ∧ 2303 < 2304 ∧ 2304 ≤ 2304 ∧ ([] : List PortIn).length ≤ Config.extraLatency (PortState.reset.accepted + 1)
    ∧ (∀ n, (List.replicate n (⟨false, true, 0⟩ : PortIn)).length = n)
    ∧ ∀ n, ∀ i ∈ List.replicate n (⟨false, true, 0⟩ : PortIn), i.rst = false :=
  ⟨rfl, rfl, rfl, rfl, rfl, rfl, rfl, by omega, le_rfl, Nat.zero_le _, fun _ => List.length_replicate, fun _ _ h => by rw [List.eq_of_mem_replicate h]⟩

end Sys2Proof.Tests
end

/-! Proofs of the scope family (00_scope.md). First what a step and an instruction answer, an equation per case; then the internal steps of a
GEN; then the cycles of one command in execution; then the statements. -/

namespace Sys2Proof.Machine

/-! What a step does with the event offered next. -/

theorem step_of_no_event {s : State} (h : s.events = []) : step s = .next s := by
  simp [step, stepEvent, State.nextEvent, h]

theorem step_of_command {s : State} {w : CmdWord} {rest : List HostEvent} (h : s.events = .command w :: rest) :
    step s = acceptWord w { s with events := rest } := by
  simp [step, stepEvent, State.nextEvent, handleEvent, h]

theorem step_of_reset {s : State} {rest : List HostEvent} (h : s.events = .reset :: rest) :
    step s = .next (State.takeReset { s with events := rest }) := by
  simp [step, stepEvent, State.nextEvent, handleEvent, h]

theorem acceptWord_of_instr {w : CmdWord} {i : Instr} (s : State) (h : decode w = .instr i) : acceptWord w s = exec i s := by
  simp [acceptWord, h]

theorem acceptWord_of_illegal {w : CmdWord} {why : Illegal} (s : State) (h : decode w = .illegal why) :
    acceptWord w s = .next (s.respond .errIllegal 0) := by
  simp [acceptWord, h]

/-! The five commands, accepted and refused (R56, R57, R68 to R70, R85 to R87). -/

theorem exec_gen_of_idle {s : State} (p : Word) (h : s.active = false) :
    exec (.gen p) s = .next (((s.fillTable p).setTvalid true).respond .ok 0) :=
  congrArg Host.Outcome.next (State.needIdle_of_idle _ h)

theorem exec_gen_of_active {s : State} (p : Word) (h : s.active = true) : exec (.gen p) s = .next (s.respond .errActive 0) :=
  congrArg Host.Outcome.next (State.needIdle_of_active _ h)

theorem exec_rdtab_of_valid {s : State} (i : Byte) (h : s.tvalid = true) :
    exec (.rdtab i) s = .next (s.respond .ok (s.lookup i)) :=
  congrArg Host.Outcome.next (State.needTable_of_valid _ h)

theorem exec_rdtab_of_invalid {s : State} (i : Byte) (h : s.tvalid = false) :
    exec (.rdtab i) s = .next (s.respond .errNoTable 0) :=
  congrArg Host.Outcome.next (State.needTable_of_invalid _ h)

theorem exec_init_of_valid {s : State} (v : Word) (h : s.tvalid = true) :
    exec (.init v) s = .next (((s.setCrc v).setActive true).respond .ok 0) :=
  congrArg Host.Outcome.next (State.needTable_of_valid _ h)

theorem exec_init_of_invalid {s : State} (v : Word) (h : s.tvalid = false) :
    exec (.init v) s = .next (s.respond .errNoTable 0) :=
  congrArg Host.Outcome.next (State.needTable_of_invalid _ h)

theorem exec_update_of_active {s : State} (b : Byte) (h : s.active = true) :
    exec (.update b) s = .next ((s.setCrc (upd s.crcValue b s.lookup)).respond .ok 0) :=
  congrArg Host.Outcome.next (State.needActive_of_active _ h)

theorem exec_update_of_idle {s : State} (b : Byte) (h : s.active = false) :
    exec (.update b) s = .next (s.respond .errIdle 0) :=
  congrArg Host.Outcome.next (State.needActive_of_idle _ h)

theorem exec_final_of_active {s : State} (n : Bool) (h : s.active = true) :
    exec (.final n) s = .next ((s.dropCrc.setActive false).respond .ok (fin s.crcValue n)) :=
  congrArg Host.Outcome.next (State.needActive_of_active _ h)

theorem exec_final_of_idle {s : State} (n : Bool) (h : s.active = false) :
    exec (.final n) s = .next (s.respond .errIdle 0) :=
  congrArg Host.Outcome.next (State.needActive_of_idle _ h)

/-- R99 for commands: whatever the flags, the machine goes on with one more response. -/
theorem exec_answers (i : Instr) (s : State) : ∃ t r, exec i s = .next t ∧ t.responses = s.responses ++ [r] := by
  cases i with
  | gen p =>
    cases h : s.active
    · exact ⟨_, _, exec_gen_of_idle p h, rfl⟩
    · exact ⟨_, _, exec_gen_of_active p h, rfl⟩
  | rdtab i =>
    cases h : s.tvalid
    · exact ⟨_, _, exec_rdtab_of_invalid i h, rfl⟩
    · exact ⟨_, _, exec_rdtab_of_valid i h, rfl⟩
  | init v =>
    cases h : s.tvalid
    · exact ⟨_, _, exec_init_of_invalid v h, rfl⟩
    · exact ⟨_, _, exec_init_of_valid v h, rfl⟩
  | update b =>
    cases h : s.active
    · exact ⟨_, _, exec_update_of_idle b h, rfl⟩
    · exact ⟨_, _, exec_update_of_active b h, rfl⟩
  | final n =>
    cases h : s.active
    · exact ⟨_, _, exec_final_of_idle n h, rfl⟩
    · exact ⟨_, _, exec_final_of_active n h, rfl⟩

/-- R99 for words, legal or not. -/
theorem acceptWord_answers (w : CmdWord) (s : State) :
    ∃ t r, acceptWord w s = .next t ∧ t.responses = s.responses ++ [r] := by
  cases h : decode w with
  | instr i => rw [acceptWord_of_instr s h]; exact exec_answers i s
  | illegal why => exact ⟨_, _, acceptWord_of_illegal s h, rfl⟩

theorem State.newestWord_of_append {s : State} {rs : List Response} {r : Response} (h : s.responses = rs ++ [r]) :
    s.newestWord = some r.word := by
  simp [State.newestWord, h]

/-! The internal steps of a GEN (R59): eight rounds and a store for each entry are the loop of R56. -/

theorem Memory.writeAll_append (f : Nat → Word) (as bs : List Nat) (m : Memory) :
    m.writeAll f (as ++ bs) = (m.writeAll f as).writeAll f bs := by
  induction as generalizing m with
  | nil => simp [Memory.writeAll]
  | cons a as ih => simp [Memory.writeAll, ih]

theorem Memory.writeAll_range_succ (f : Nat → Word) (n : Nat) (m : Memory) :
    m.writeAll f (List.range (n + 1)) = (m.writeAll f (List.range n)).write n (f n) := by
  simp [List.range_succ, Memory.writeAll_append, Memory.writeAll]

/-- The generator about to do the first round of entry `b`. -/
def Generator.atEntry (p : Word) (b : Byte) : Generator := { p := p, b := b, k := 0, w := atHigh b }

theorem Generator.start_eq_atEntry (p : Word) : Generator.start p = Generator.atEntry p 0 := rfl

/-- The memory after the first `n` stores of a GEN: the loop of R56 cut after `n` entries. -/
def State.fillEntries (p : Word) (n : Nat) (s : State) : State :=
  s.writeEntries (fun b => tableEntry (BitVec.ofNat 8 b) p) (List.range n)

theorem State.fillEntries_zero (p : Word) (s : State) : s.fillEntries p 0 = s := by
  simp [State.fillEntries, State.writeEntries, Memory.writeAll]

theorem State.fillEntries_succ (p : Word) (n : Nat) (s : State) :
    s.fillEntries p (n + 1)
      = { s with table := (s.fillEntries p n).table.write n (tableEntry (BitVec.ofNat 8 n) p) } := by
  simp [State.fillEntries, State.writeEntries, Memory.writeAll_range_succ]

theorem State.fillEntries_all (p : Word) (s : State) : s.fillEntries p Config.tableDepth = s.fillTable p := rfl

/-- Rounds up to the eighth change only the working value and its count. -/
theorem Job.run_rounds (n : Nat) (g : Generator) (s : State) (h : g.k + n ≤ Config.roundsPerEntry) :
    Job.run n (.generating g, s) = (.generating { g with w := crcRounds n g.w g.p, k := g.k + n }, s) := by
  induction n generalizing g with
  | zero => rfl
  | succ n ih =>
    rw [Job.run_succ, Job.advance_round s (by omega), ih _ (by simp only; omega)]
    simp only [crcRounds, Nat.add_assoc, Nat.add_comm 1 n]

/-- The eight rounds of an entry leave the entry in the working value. -/
theorem Job.run_entryRounds (p : Word) (b : Byte) (s : State) :
    Job.run Config.roundsPerEntry (.generating (.atEntry p b), s)
      = (.generating { p := p, b := b, k := Config.roundsPerEntry, w := tableEntry b p }, s) :=
  Job.run_rounds Config.roundsPerEntry (.atEntry p b) s (by simp [Generator.atEntry])

/-- An entry that is not the last: it is stored, and the next one begins. -/
theorem Job.run_entry (p : Word) {b : Byte} (s : State) (hb : b ≠ 255) :
    Job.run (Config.roundsPerEntry + 1) (.generating (.atEntry p b), s)
      = (.generating (.atEntry p (b + 1)), { s with table := s.table.write b.toNat (tableEntry b p) }) := by
  rw [Job.run_add, Job.run_entryRounds, Job.run_succ, Job.advance_store s (by simp) hb]
  rfl

/-- The last entry: it is stored, the table becomes valid, and the response is due. -/
theorem Job.run_lastEntry (p : Word) (s : State) :
    Job.run (Config.roundsPerEntry + 1) (.generating (.atEntry p 255), s)
      = (.done ⟨.ok, 0⟩, { s with table := s.table.write 255 (tableEntry 255 p), tvalid := true }) := by
  rw [Job.run_add, Job.run_entryRounds, Job.run_succ, Job.advance_lastStore s (by simp) rfl]
  rfl

/-- After nine steps for each of the first `n` entries the memory holds them, and entry `n` begins. -/
theorem Job.run_entries (p : Word) (s : State) (n : Nat) (hn : n ≤ 255) :
    Job.run (n * (Config.roundsPerEntry + 1)) (.generating (.start p), s)
      = (.generating (.atEntry p (BitVec.ofNat 8 n)), s.fillEntries p n) := by
  induction n with
  | zero => simp [Generator.start_eq_atEntry, State.fillEntries_zero]
  | succ n ih =>
    have hne : BitVec.ofNat 8 n ≠ 255 := by bv_omega
    have hlt : (BitVec.ofNat 8 n).toNat = n := Nat.mod_eq_of_lt (by omega)
    rw [Nat.succ_mul, Job.run_add, ih (by omega), Job.run_entry p _ hne, hlt, State.fillEntries_succ, BitVec.ofNat_add]
    rfl

/-- All the steps of a GEN: the whole table written in order and validated. -/
theorem Job.run_generating (p : Word) (s : State) :
    Job.run Job.maxSteps (.generating (.start p), s) = (.done ⟨.ok, 0⟩, (s.fillTable p).setTvalid true) := by
  have hcut : Job.maxSteps = 255 * (Config.roundsPerEntry + 1) + (Config.roundsPerEntry + 1) := Job.maxSteps_eq
  rw [hcut, Job.run_add, Job.run_entries p s 255 le_rfl, ← State.fillEntries_all, State.fillEntries_succ p 255]
  exact Job.run_lastEntry p (s.fillEntries p 255)

/-! One command in execution, over its cycles. -/

/-- However many steps the job of `x` has done beyond `Job.maxSteps`, it delivers the newest response of `t` and leaves `t`. -/
def Job.EndsIn (x : Job × State) (t : State) : Prop :=
  ∀ n, (Job.run (n + Job.maxSteps) x).1.deliver (Job.run (n + Job.maxSteps) x).2 = (t.newestWord, t)

theorem Job.EndsIn.run {x : Job × State} {t : State} (h : Job.EndsIn x t) (k : Nat) : Job.EndsIn (Job.run k x) t := by
  intro n
  rw [← Job.run_add, ← Nat.add_assoc]
  exact h (k + n)

theorem Job.EndsIn.deliver {x : Job × State} {t : State} (h : Job.EndsIn x t) :
    (Job.run Job.maxSteps x).1.deliver (Job.run Job.maxSteps x).2 = (t.newestWord, t) := by
  simpa using h 0

/-- A job whose effect is complete within `Job.maxSteps` steps ends in the response added to that effect. -/
theorem Job.endsIn_of_run_eq_done {x : Job × State} {k : Nat} {r : Response} {s : State} (hk : k ≤ Job.maxSteps)
    (h : Job.run k x = (.done r, s)) : Job.EndsIn x (s.respond r.status r.data) := by
  intro n
  obtain ⟨m, hm⟩ := Nat.exists_eq_add_of_le (hk.trans (Nat.le_add_left _ n))
  rw [hm, Job.run_add, h, Job.run_done, State.newestWord_of_append (State.respond_responses s r.status r.data)]
  rfl

theorem Job.endsIn_whole {w : CmdWord} {s t : State} (h : acceptWord w s = .next t) : Job.EndsIn (.whole w, s) t := by
  intro n
  simp [Job.deliver, stateAfter, h]

theorem Job.endsIn_generating (p : Word) (s : State) :
    Job.EndsIn (.generating (.start p), s) (((s.fillTable p).setTvalid true).respond .ok 0) :=
  Job.endsIn_of_run_eq_done le_rfl (Job.run_generating p s)

theorem Job.endsIn_index (b : Byte) (s : State) :
    Job.EndsIn (.index b, s) ((s.setCrc (upd s.crcValue b s.lookup)).respond .ok 0) :=
  Job.endsIn_of_run_eq_done (by rw [Job.maxSteps_eq]; omega) (Job.run_index 0 b s)

theorem PortState.cycle_idle {c : PortState} {i : PortIn} (hr : i.rst = false) (h : c.phase = .idle) :
    c.cycle i = (⟨true, none⟩, if i.cmdValid then c.accept i.cmdWord else c) := by
  simp [PortState.cycle, hr, h]

theorem PortState.cycle_executing {c : PortState} {i : PortIn} {n : Nat} {j : Job} (hr : i.rst = false)
    (h : c.phase = .executing n j) : c.cycle i = (⟨false, c.work.1⟩, c.work.2) := by
  simp [PortState.cycle, hr, h]

/-- A command with `n` cycles to wait: nothing in those, its response in the next, and then the block is idle with its effect. What the host
offers meanwhile makes no difference, and neither does the pace. -/
theorem PortState.run_executing {n : Nat} {c : PortState} {j : Job} {t : State} {is : List PortIn}
    (hphase : c.phase = .executing n j) (hends : Job.EndsIn (j, c.core) t) (hlen : is.length = n + 1)
    (hrst : ∀ i ∈ is, i.rst = false) :
    PortState.run is c
      = (List.replicate n ⟨false, none⟩ ++ [⟨false, t.newestWord⟩], { core := t, phase := .idle, accepted := c.accepted }) := by
  induction n generalizing c j is with
  | zero =>
    obtain ⟨i, rfl⟩ := List.length_eq_one_iff.mp hlen
    simp [PortState.run, PortState.cycle_executing (hrst i (by simp)) hphase, PortState.work_last hphase hends.deliver,
      PortState.withCore, PortState.enter]
  | succ n ih =>
    obtain _ | ⟨i, is⟩ := is
    · simp at hlen
    · have hrest := ih (c := c.work.2) (is := is) (by rw [PortState.work_before hphase]; rfl)
        (by rw [PortState.work_before hphase]; exact hends.run (Config.stepsInCycle c.accepted n))
        (by simpa using hlen) fun i hi => hrst i (List.mem_cons_of_mem _ hi)
      rw [PortState.run, PortState.cycle_executing (hrst i List.mem_cons_self) hphase, hrest, PortState.work_before hphase]
      rfl

/-! Acceptance. -/

/-- Everything an acceptance can do: start the generator, enter the stages of the engine, or take the word as a whole. -/
theorem PortState.accept_cases (c : PortState) (w : CmdWord) :
    (∃ p, decode w = .instr (.gen p) ∧ c.core.active = false ∧ c.accept w =
      { core := c.core.setTvalid false, accepted := c.accepted + 1,
        phase := .executing (Config.extraLatency (c.accepted + 1)) (.generating (.start p)) })
    ∨ (∃ b, decode w = .instr (.update b) ∧ c.core.active = true ∧ c.accept w =
      { core := c.core, accepted := c.accepted + 1, phase := .executing (Config.extraLatency (c.accepted + 1)) (.index b) })
    ∨ ((∀ p, decode w = .instr (.gen p) → c.core.active = true) ∧ (∀ b, decode w = .instr (.update b) → c.core.active = false)
      ∧ c.accept w =
        { core := c.core, accepted := c.accepted + 1, phase := .executing (Config.extraLatency (c.accepted + 1)) (.whole w) }) := by
  have hbegin : ∀ j s, (PortState.mk s c.phase (c.accepted + 1)).begin j =
      { core := s, accepted := c.accepted + 1, phase := .executing (Config.extraLatency (c.accepted + 1)) j } := fun _ _ => rfl
  unfold PortState.accept
  split
  next p hd => cases ha : c.core.active <;> simp [PortState.withCore, hbegin, hd]
  next b hd => cases ha : c.core.active <;> simp [hbegin, hd]
  next hgen hupdate => exact .inr (.inr ⟨fun p hd => absurd hd (hgen p), fun b hd => absurd hd (hupdate b), rfl⟩)

/-- An accepted word is in execution, with a job that ends in the state in which the transaction leaves the block. -/
theorem PortState.accept_endsIn {c : PortState} {w : CmdWord} {t : State} (h : acceptWord w c.core = .next t) :
    ∃ j s, c.accept w =
        { core := s, accepted := c.accepted + 1, phase := .executing (Config.extraLatency (c.accepted + 1)) j }
      ∧ Job.EndsIn (j, s) t := by
  obtain ⟨p, hd, ha, hacc⟩ | ⟨b, hd, ha, hacc⟩ | ⟨_, _, hacc⟩ := c.accept_cases w
  · rw [acceptWord_of_instr _ hd, exec_gen_of_idle p ha] at h
    cases h
    exact ⟨_, _, hacc, Job.endsIn_generating p _⟩
  · rw [acceptWord_of_instr _ hd, exec_update_of_active b ha] at h
    cases h
    exact ⟨_, _, hacc, Job.endsIn_index b _⟩
  · exact ⟨_, _, hacc, Job.endsIn_whole h⟩

/-- A word offered to an idle block, and the cycles up to its response. -/
theorem PortState.run_word {c : PortState} {w : CmdWord} {t : State} {is : List PortIn} (hidle : c.phase = .idle)
    (h : acceptWord w c.core = .next t) (hlen : is.length = Config.extraLatency (c.accepted + 1) + 1)
    (hrst : ∀ i ∈ is, i.rst = false) :
    PortState.run (⟨false, true, w⟩ :: is) c
      = (⟨true, none⟩ :: (List.replicate (Config.extraLatency (c.accepted + 1)) ⟨false, none⟩ ++ [⟨false, t.newestWord⟩]),
        { core := t, phase := .idle, accepted := c.accepted + 1 }) := by
  obtain ⟨j, s, hacc, hends⟩ := PortState.accept_endsIn h
  have hrun : PortState.run is (c.accept w)
      = (List.replicate (Config.extraLatency (c.accepted + 1)) ⟨false, none⟩ ++ [⟨false, t.newestWord⟩],
        { core := t, phase := .idle, accepted := c.accepted + 1 }) := by
    rw [hacc]
    exact PortState.run_executing rfl hends hlen hrst
  rw [PortState.run, PortState.cycle_idle rfl hidle, if_pos rfl, hrun]

/-! The statements. -/

/-- Settles O54: the job of the accepted word ends in the state of `step`, at every pace and after every latency. -/
theorem portRefinesStep : Obligations.PortRefinesStep := by
  intro c w hidle
  obtain ⟨t, r, hacc, hresp⟩ := acceptWord_answers w c.core
  refine ⟨t, r, (step_of_command rfl).trans hacc, hresp, fun is hlen hrst => ?_⟩
  rw [← State.newestWord_of_append hresp]
  exact PortState.run_word hidle hacc hlen hrst

/-- Settles O3: with no event to take, the step is the state itself. -/
theorem idlePortChangesNothing : Obligations.IdlePortChangesNothing :=
  fun _ h => step_of_no_event h

/-- Settles O4: the word is taken off the port and its decoded command executed. -/
theorem stepRunsDecodedCommand : Obligations.StepRunsDecodedCommand :=
  fun _ _ _ _ hevents hdecode => (step_of_command hevents).trans (acceptWord_of_instr _ hdecode)

/-- Settles O7, by the event offered next. -/
theorem stepNeverStops : Obligations.StepNeverStops := by
  intro s
  rcases h : s.events with _ | ⟨_ | _, rest⟩
  case nil => exact ⟨s, step_of_no_event h, by simp⟩
  case cons.command w =>
    obtain ⟨t, r, hacc, hresp⟩ := acceptWord_answers w { s with events := rest }
    exact ⟨t, (step_of_command h).trans hacc, fun _ _ _ => by simp [hresp]⟩
  case cons.reset => exact ⟨_, step_of_reset h, by simp⟩

end Sys2Proof.Machine

/-! Proofs of the state family (10_state.md). First what a word and a command say of each other; then an accepted command apart from a refused
one, and everything a step can do; then the invariant, what cannot be seen, and the generator below the transaction; then the statements. -/

namespace Sys2Proof.Machine

/-! A decoded word is the word of its command (R37, R49). -/

theorem opField_append_argField (w : CmdWord) : (opField w ++ argField w : CmdWord) = w := by
  apply BitVec.eq_of_toNat_eq
  rw [cmdWord_toNat, opField_toNat, argField_toNat]
  omega

/-- With `arg[15:8]` zero the argument is its low byte (R48). -/
theorem argField_of_argHigh_zero {w : CmdWord} (h : argHigh w = 0) : argField w = (0 : Byte) ++ argLow w := by
  have hnat : (argHigh w).toNat = 0 := congrArg BitVec.toNat h
  rw [argHigh_toNat] at hnat
  apply BitVec.eq_of_toNat_eq
  rw [word_toNat, argField_toNat, argLow_toNat, show (0 : Byte).toNat = 0 from rfl]
  omega

theorem argumentOf_final_toNat (n : Bool) : (argumentOf (.final n)).toNat = n.toNat := by
  cases n <;> rfl

/-- With `arg[15:1]` zero the argument is the flag (R48). -/
theorem argField_of_argAboveFlag_zero {w : CmdWord} (h : argAboveFlag w = 0) :
    argField w = argumentOf (.final (argFlag w)) := by
  have hnat : (argAboveFlag w).toNat = 0 := congrArg BitVec.toNat h
  rw [argAboveFlag_toNat] at hnat
  apply BitVec.eq_of_toNat_eq
  rw [argField_toNat, argumentOf_final_toNat, argFlag_toNat]
  omega

theorem encode_of_fields {w : CmdWord} {i : Instr} (hop : opField w = opcodeOf i) (harg : argField w = argumentOf i) :
    encode i = w := by
  rw [encode, ← hop, ← harg, opField_append_argField]

theorem whenZero_eq_instr {z : Bool} {w : CmdWord} {i j : Instr} (h : whenZero z w i = .instr j) : z = true ∧ i = j := by
  cases z <;> simp_all [whenZero]

/-- R49: the word of the command decoded, by the five patterns. -/
theorem encode_of_decode {w : CmdWord} {i : Instr} (h : decode w = .instr i) : encode i = w := by
  unfold decode at h
  split at h
  next hop => cases h; exact encode_of_fields hop rfl
  split at h
  next hop =>
    obtain ⟨hz, rfl⟩ := whenZero_eq_instr h
    exact encode_of_fields hop (argField_of_argHigh_zero (by simpa using hz))
  split at h
  next hop => cases h; exact encode_of_fields hop rfl
  split at h
  next hop =>
    obtain ⟨hz, rfl⟩ := whenZero_eq_instr h
    exact encode_of_fields hop (argField_of_argHigh_zero (by simpa using hz))
  split at h
  next hop =>
    obtain ⟨hz, rfl⟩ := whenZero_eq_instr h
    exact encode_of_fields hop (argField_of_argAboveFlag_zero (by simpa using hz))
  next => cases h

theorem decode_encode_gen (p : Word) : decode (encode (.gen p)) = .instr (.gen p) := by
  have hnat : (encode (.gen p)).toNat = 65536 + p.toNat := by
    simp [encode_toNat, opcodeOf, argumentOf]
  have hop : opField (encode (.gen p)) = 1 := by
    apply BitVec.eq_of_toNat_eq
    rw [opField_toNat, hnat, show (1 : BitVec 4).toNat = 1 from rfl]
    omega
  have harg : argField (encode (.gen p)) = p := by
    apply BitVec.eq_of_toNat_eq
    rw [argField_toNat, hnat]
    omega
  rw [decode, if_pos hop, harg]

/-! Accepted and refused commands: the preconditions of R85 to R87, one for each command. -/

/-- The flags let the command go on. -/
def State.accepts (s : State) : Instr → Bool
  | .gen _ => !s.active
  | .rdtab _ | .init _ => s.tvalid
  | .update _ | .final _ => s.active

theorem State.accepts_withEvents (s : State) (es : List HostEvent) (i : Instr) :
    State.accepts { s with events := es } i = s.accepts i := by
  cases i <;> rfl

/-- How the command is answered when the flags do not. -/
def refusalOf : Instr → Status
  | .gen _ => .errActive
  | .rdtab _ | .init _ => .errNoTable
  | .update _ | .final _ => .errIdle

/-- The state an accepted command leaves (R56, R57, R68 to R70). -/
def State.execute (i : Instr) (s : State) : State :=
  match i with
  | .gen p => ((s.fillTable p).setTvalid true).respond .ok 0
  | .rdtab i => s.respond .ok (s.lookup i)
  | .init v => ((s.setCrc v).setActive true).respond .ok 0
  | .update b => (s.setCrc (upd s.crcValue b s.lookup)).respond .ok 0
  | .final n => (s.dropCrc.setActive false).respond .ok (fin s.crcValue n)

theorem refusalOf_ne_ok (i : Instr) : refusalOf i ≠ .ok := by
  cases i <;> simp [refusalOf]

theorem exec_of_accepts {s : State} {i : Instr} (h : s.accepts i = true) : exec i s = .next (s.execute i) := by
  cases i with
  | gen p => exact exec_gen_of_idle p (by simpa [State.accepts] using h)
  | rdtab i => exact exec_rdtab_of_valid i h
  | init v => exact exec_init_of_valid v h
  | update b => exact exec_update_of_active b h
  | final n => exact exec_final_of_active n h

theorem exec_of_not_accepts {s : State} {i : Instr} (h : s.accepts i = false) :
    exec i s = .next (s.respond (refusalOf i) 0) := by
  cases i with
  | gen p => exact exec_gen_of_active p (by simpa [State.accepts] using h)
  | rdtab i => exact exec_rdtab_of_invalid i h
  | init v => exact exec_init_of_invalid v h
  | update b => exact exec_update_of_idle b h
  | final n => exact exec_final_of_idle n h

/-- Everything a step can do: nothing, a reset, a response and nothing else, or an accepted command. -/
theorem step_cases {s t : State} (h : step s = .next t) :
    (s.events = [] ∧ t = s)
    ∨ (∃ rest, s.events = .reset :: rest ∧ t = State.takeReset { s with events := rest })
    ∨ (∃ w rest e, s.events = .command w :: rest ∧ e ≠ .ok ∧ t = State.respond { s with events := rest } e 0)
    ∨ (∃ i rest, s.events = .command (encode i) :: rest ∧ s.accepts i = true
        ∧ t = State.execute i { s with events := rest }) := by
  have hstep : stepEvent s = .next t := h
  obtain ⟨he, hs⟩ | ⟨rest, he, hs⟩ | ⟨w, why, rest, he, hd, hs⟩ | ⟨w, i, rest, he, hd, hs⟩ := stepEvent_cases s
    <;> rw [hs] at hstep
  · cases hstep; exact .inl ⟨he, rfl⟩
  · cases hstep; exact .inr (.inl ⟨rest, he, rfl⟩)
  · cases hstep; exact .inr (.inr (.inl ⟨w, rest, _, he, by decide, rfl⟩))
  · have hflags := s.accepts_withEvents rest i
    cases ha : s.accepts i <;> rw [ha] at hflags
    · rw [exec_of_not_accepts hflags] at hstep
      cases hstep
      exact .inr (.inr (.inl ⟨w, rest, _, he, refusalOf_ne_ok i, rfl⟩))
    · rw [exec_of_accepts hflags] at hstep
      cases hstep
      exact .inr (.inr (.inr ⟨i, rest, by rw [encode_of_decode hd, he], ha, rfl⟩))

/-! What a step can do to the table and to each flag. -/

/-- Of the accepted commands only GEN writes the table (R11). -/
theorem step_table_cases {s t : State} (h : step s = .next t) :
    t.table = s.table
    ∨ (∃ rest, s.events = .reset :: rest)
    ∨ (∃ p rest, s.events = .command (encode (.gen p)) :: rest ∧ s.active = false) := by
  obtain ⟨_, rfl⟩ | ⟨rest, he, _⟩ | ⟨_, _, _, _, _, rfl⟩ | ⟨i, rest, he, ha, rfl⟩ := step_cases h
  · exact .inl rfl
  · exact .inr (.inl ⟨rest, he⟩)
  · exact .inl rfl
  · cases i with
    | gen p => exact .inr (.inr ⟨p, rest, he, by simpa [State.accepts] using ha⟩)
    | rdtab _ | init _ | update _ | final _ => exact .inl rfl

/-- Of the accepted commands only GEN writes `TVALID` (R13). -/
theorem step_tvalid_cases {s t : State} (h : step s = .next t) :
    t.tvalid = s.tvalid
    ∨ (t.tvalid = false ∧ ∃ rest, s.events = .reset :: rest)
    ∨ (t.tvalid = true ∧ s.active = false ∧ ∃ p rest, s.events = .command (encode (.gen p)) :: rest) := by
  obtain ⟨_, rfl⟩ | ⟨rest, he, rfl⟩ | ⟨_, _, _, _, _, rfl⟩ | ⟨i, rest, he, ha, rfl⟩ := step_cases h
  · exact .inl rfl
  · exact .inr (.inl ⟨rfl, rest, he⟩)
  · exact .inl rfl
  · cases i with
    | gen p => exact .inr (.inr ⟨rfl, by simpa [State.accepts] using ha, p, rest, he⟩)
    | rdtab _ | init _ | update _ | final _ => exact .inl rfl

/-- Of the accepted commands only INIT and FINAL write `ACTIVE` (R15). -/
theorem step_active_cases {s t : State} (h : step s = .next t) :
    t.active = s.active
    ∨ (t.active = true ∧ s.tvalid = true ∧ ∃ v rest, s.events = .command (encode (.init v)) :: rest)
    ∨ (t.active = false ∧
        ((∃ rest, s.events = .reset :: rest) ∨ ∃ n rest, s.events = .command (encode (.final n)) :: rest)) := by
  obtain ⟨_, rfl⟩ | ⟨rest, he, rfl⟩ | ⟨_, _, _, _, _, rfl⟩ | ⟨i, rest, he, ha, rfl⟩ := step_cases h
  · exact .inl rfl
  · exact .inr (.inr ⟨rfl, .inl ⟨rest, he⟩⟩)
  · exact .inl rfl
  · cases i with
    | init v => exact .inr (.inl ⟨rfl, ha, v, rest, he⟩)
    | final n => exact .inr (.inr ⟨rfl, .inr ⟨n, rest, he⟩⟩)
    | gen _ | rdtab _ | update _ => exact .inl rfl

/-! The table of a GEN. -/

theorem State.fillTable_read (p : Word) (s : State) (b : Byte) :
    (s.fillTable p).table.read b.toNat = some (tableEntry b p) := by
  rw [State.fillTable, State.writeEntries_table, Memory.read_writeAll, if_pos (List.mem_range.mpr b.isLt),
    BitVec.ofNat_toNat, BitVec.setWidth_eq]

theorem State.fillTable_wf (p : Word) {s : State} (h : s.table.wf = true) : (s.fillTable p).table.wf = true :=
  Memory.wf_writeAll _ (fun _ hb => List.mem_range.mp hb) h

/-! The invariant. -/

/-- The invariant speaks of the four elements of R10 only. -/
theorem State.Inv.of_same_elements {s t : State} (h : s.Inv) (htable : t.table = s.table) (htvalid : t.tvalid = s.tvalid)
    (hcrc : t.crc = s.crc) (hactive : t.active = s.active) : t.Inv := by
  obtain ⟨wf, generated, empty, crc, active⟩ := h
  constructor <;> simpa [State.Generated, htable, htvalid, hcrc, hactive]

theorem State.reset_inv : State.reset.Inv where
  wf := State.reset_wf
  generated := fun h => absurd h Bool.false_ne_true
  empty := fun _ => rfl
  crc := rfl
  active := fun h => absurd h Bool.false_ne_true

/-- An accepted command keeps the invariant: GEN writes a whole table, INIT and FINAL move `CRC` and `ACTIVE` together, and UPDATE needs `ACTIVE`. -/
theorem State.Inv.execute {s : State} {i : Instr} (h : s.Inv) (ha : s.accepts i = true) : (s.execute i).Inv := by
  cases i with
  | gen p =>
    exact ⟨State.fillTable_wf p h.wf, fun _ => ⟨p, State.fillTable_read p s⟩, fun hv => absurd hv.symm Bool.false_ne_true,
      h.crc, fun _ => rfl⟩
  | rdtab i => exact h.of_same_elements rfl rfl rfl rfl
  | init v => exact ⟨h.wf, h.generated, h.empty, rfl, fun _ => ha⟩
  | update b => exact ⟨h.wf, h.generated, h.empty, ha.symm, h.active⟩
  | final n => exact ⟨h.wf, h.generated, h.empty, rfl, fun hf => absurd hf Bool.false_ne_true⟩

theorem State.Inv.step {s t : State} (h : s.Inv) (hstep : Machine.step s = .next t) : t.Inv := by
  obtain ⟨_, rfl⟩ | ⟨_, _, rfl⟩ | ⟨_, rest, _, _, _, rfl⟩ | ⟨i, rest, _, ha, rfl⟩ := step_cases hstep
  · exact h
  · exact State.reset_inv.of_same_elements rfl rfl rfl rfl
  · exact h.of_same_elements rfl rfl rfl rfl
  · have hrest : State.Inv { s with events := rest } := h.of_same_elements rfl rfl rfl rfl
    exact hrest.execute ((s.accepts_withEvents rest i).trans ha)

/-- What every step keeps, every run keeps. -/
theorem runSteps_keeps {P : State → Prop} (hkeep : ∀ s t, P s → step s = .next t → P t) (n : Nat) {s t : State}
    (hs : P s) (hrun : runSteps n s = .next t) : P t := by
  induction n generalizing s with
  | zero => cases hrun; exact hs
  | succ n ih =>
    rw [runSteps] at hrun
    split at hrun
    next u hu => exact ih (hkeep s u hs hu) hrun
    next => cases hrun
    next => cases hrun

/-! What the host cannot see. -/

theorem State.LooksLike.respond {s t : State} (h : s.LooksLike t) (e : Status) (d : Word) :
    (s.respond e d).LooksLike (t.respond e d) := by
  obtain ⟨htvalid, hactive, hevents, hresponses, hcrc, htable⟩ := h
  refine ⟨htvalid, hactive, hevents, ?_, hcrc, htable⟩
  rw [State.respond_responses, State.respond_responses, hresponses]

theorem State.LooksLike.setCrc {s t : State} (h : s.LooksLike t) (v : Word) : (s.setCrc v).LooksLike (t.setCrc v) := by
  obtain ⟨htvalid, hactive, hevents, hresponses, _, htable⟩ := h
  exact ⟨htvalid, hactive, hevents, hresponses, fun _ => rfl, htable⟩

/-- A computation may begin or end where a table is in use. -/
theorem State.LooksLike.setActive {s t : State} (h : s.LooksLike t) (huse : s.tvalid = true ∨ s.active = true)
    (hcrc : s.crc = t.crc) (v : Bool) : (s.setActive v).LooksLike (t.setActive v) := by
  obtain ⟨htvalid, _, hevents, hresponses, _, htable⟩ := h
  exact ⟨htvalid, rfl, hevents, hresponses, fun _ => hcrc, fun _ => htable huse⟩

theorem State.LooksLike.dropCrc {s t : State} (h : s.LooksLike t) : s.dropCrc.LooksLike t.dropCrc := by
  obtain ⟨htvalid, hactive, hevents, hresponses, _, htable⟩ := h
  exact ⟨htvalid, hactive, hevents, hresponses, fun _ => rfl, htable⟩

/-- Whatever the tables held, after the same GEN they hold the same. -/
theorem State.LooksLike.fillTable {s t : State} (h : s.LooksLike t) (p : Word) :
    ((s.fillTable p).setTvalid true).LooksLike ((t.fillTable p).setTvalid true) := by
  obtain ⟨_, hactive, hevents, hresponses, hcrc, _⟩ := h
  exact ⟨rfl, hactive, hevents, hresponses, hcrc,
    fun _ b => (State.fillTable_read p s b).trans (State.fillTable_read p t b).symm⟩

theorem State.LooksLike.withEvents {s t : State} (h : s.LooksLike t) (es : List HostEvent) :
    State.LooksLike { s with events := es } { t with events := es } := by
  obtain ⟨htvalid, hactive, _, hresponses, hcrc, htable⟩ := h
  exact ⟨htvalid, hactive, rfl, hresponses, hcrc, htable⟩

theorem State.LooksLike.takeReset {s t : State} (h : s.LooksLike t) : s.takeReset.LooksLike t.takeReset := by
  obtain ⟨_, _, hevents, hresponses, _, _⟩ := h
  exact ⟨rfl, rfl, hevents, hresponses, fun _ => rfl, fun _ _ => rfl⟩

theorem State.LooksLike.accepts_eq {s t : State} (h : s.LooksLike t) (i : Instr) : s.accepts i = t.accepts i := by
  obtain ⟨htvalid, hactive, _⟩ := h
  cases i <;> simp [State.accepts, htvalid, hactive]

/-- A table in use is looked up alike. -/
theorem State.LooksLike.lookup_eq {s t : State} (h : s.LooksLike t) (huse : s.tvalid = true ∨ s.active = true) :
    s.lookup = t.lookup := by
  obtain ⟨_, _, _, _, _, htable⟩ := h
  funext b
  rw [State.lookup, State.lookup, htable huse b]

theorem State.LooksLike.crcValue_eq {s t : State} (h : s.LooksLike t) (ha : s.active = true) : s.crcValue = t.crcValue := by
  obtain ⟨_, _, _, _, hcrc, _⟩ := h
  rw [State.crcValue, State.crcValue, hcrc ha]

/-- An accepted command reads only what its precondition puts in use, and GEN replaces the whole table. -/
theorem State.LooksLike.execute {s t : State} {i : Instr} (h : s.LooksLike t) (ha : s.accepts i = true) :
    (s.execute i).LooksLike (t.execute i) := by
  cases i with
  | gen p => exact (h.fillTable p).respond .ok 0
  | rdtab i =>
    rw [State.execute, State.execute, ← h.lookup_eq (.inl ha)]
    exact h.respond .ok _
  | init v => exact ((h.setCrc v).setActive (.inl ha) rfl true).respond .ok 0
  | update b =>
    rw [State.execute, State.execute, ← h.lookup_eq (.inr ha), ← h.crcValue_eq ha]
    exact (h.setCrc _).respond .ok 0
  | final n =>
    rw [State.execute, State.execute, ← h.crcValue_eq ha]
    exact (h.dropCrc.setActive (.inr ha) rfl false).respond .ok _

/-- One word, legal or not, accepted or refused, leaves alike states alike. -/
theorem State.LooksLike.acceptWord {s₁ s₂ t₁ t₂ : State} {w : CmdWord} (h : s₁.LooksLike s₂)
    (h₁ : Machine.acceptWord w s₁ = .next t₁) (h₂ : Machine.acceptWord w s₂ = .next t₂) : t₁.LooksLike t₂ := by
  cases hd : decode w with
  | illegal why =>
    rw [acceptWord_of_illegal _ hd] at h₁ h₂
    cases h₁; cases h₂
    exact h.respond .errIllegal 0
  | instr i =>
    rw [acceptWord_of_instr _ hd] at h₁ h₂
    have hsame := h.accepts_eq i
    cases ha : s₁.accepts i
    · rw [exec_of_not_accepts ha] at h₁
      rw [exec_of_not_accepts (hsame ▸ ha)] at h₂
      cases h₁; cases h₂
      exact h.respond (refusalOf i) 0
    · rw [exec_of_accepts ha] at h₁
      rw [exec_of_accepts (hsame ▸ ha)] at h₂
      cases h₁; cases h₂
      exact h.execute ha

/-! The generator before and after its last step (R58, R59). -/

/-- Before the last step: the entries finished so far are stored and the generator is busy. -/
theorem Job.run_generating_before (p : Word) (s : State) {n : Nat} (hn : n < 2304) :
    ∃ g, Job.run n (.generating (.start p), s) = (.generating g, s.fillEntries p (n / 9)) := by
  have hcut : n = n / 9 * (Config.roundsPerEntry + 1) + n % 9 := (Nat.div_add_mod' n 9).symm
  have hround : 0 + n % 9 ≤ Config.roundsPerEntry := by simp only [Config.roundsPerEntry]; omega
  rw [hcut, Job.run_add, ← hcut, Job.run_entries p s (n / 9) (by omega)]
  exact ⟨_, Job.run_rounds (n % 9) (.atEntry p _) _ hround⟩

/-- From the last step on: the table is filled and valid, and nothing more happens. -/
theorem Job.run_generating_after (p : Word) (s : State) {n : Nat} (hn : 2304 ≤ n) :
    Job.run n (.generating (.start p), s) = (.done ⟨.ok, 0⟩, (s.fillTable p).setTvalid true) := by
  obtain ⟨m, rfl⟩ := Nat.exists_eq_add_of_le hn
  rw [Job.run_add, ← Job.maxSteps_eq, Job.run_generating, Job.run_done]

/-! The pace of a command in execution: `k` cycles before the last do the steps of `stepsDone k` (log entry 14). -/

/-- The block with its newest word in execution and `k` cycles of it done, from the job and state of `x`. -/
def PortState.afterCycles (a k : Nat) (x : Job × State) : PortState :=
  { core := (Job.run (stepsDone a k) x).2,
    phase := .executing (Config.extraLatency a - k) (Job.run (stepsDone a k) x).1, accepted := a }

theorem PortState.cycle_afterCycles {a k : Nat} {x : Job × State} {i : PortIn} (hr : i.rst = false)
    (hk : k < Config.extraLatency a) : ((PortState.afterCycles a k x).cycle i).2 = PortState.afterCycles a (k + 1) x := by
  have hphase : (PortState.afterCycles a k x).phase
      = .executing (Config.extraLatency a - (k + 1) + 1) (Job.run (stepsDone a k) x).1 := by
    rw [PortState.afterCycles, show Config.extraLatency a - k = Config.extraLatency a - (k + 1) + 1 by omega]
  rw [PortState.cycle_executing hr hphase, PortState.work_before hphase, PortState.afterCycles, PortState.afterCycles,
    stepsDone, Job.run_add]
  rfl

/-- By induction on the cycles, the newest input last. -/
theorem PortState.run_afterCycles {a : Nat} {x : Job × State} {is : List PortIn} (hlen : is.length ≤ Config.extraLatency a)
    (hrst : ∀ i ∈ is, i.rst = false) :
    (PortState.run is (PortState.afterCycles a 0 x)).2 = PortState.afterCycles a is.length x := by
  induction is using List.reverseRecOn with
  | nil => rfl
  | append_singleton is i ih =>
    rw [List.length_append, List.length_singleton] at hlen ⊢
    rw [PortState.run_append, ih (by omega) fun j hj => hrst j (List.mem_append_left _ hj)]
    exact PortState.cycle_afterCycles (hrst i (by simp)) hlen

/-- An accepted GEN begins with no step done. -/
theorem PortState.accept_gen {c : PortState} (p : Word) (ha : c.core.active = false) :
    c.accept (encode (.gen p))
      = PortState.afterCycles (c.accepted + 1) 0 (.generating (.start p), c.core.setTvalid false) := by
  simp only [PortState.accept, decode_encode_gen, ha]
  rfl

/-! The statements. -/

/-- Settles O38: each of the things a step can do keeps the invariant. -/
theorem stepKeepsStateInvariant : Obligations.StepKeepsStateInvariant :=
  fun _ _ hinv hstep => hinv.step hstep

/-- Settles O42, by the event offered next, which is the same to both states. -/
theorem unusedContentsNeverShow : Obligations.UnusedContentsNeverShow := by
  intro s₁ s₂ t₁ t₂ h h₁ h₂
  have ⟨_, _, hevents, _⟩ := h
  rcases he : s₁.events with _ | ⟨_ | _, rest⟩ <;> have he₂ := hevents.symm.trans he
  case nil =>
    rw [step_of_no_event he] at h₁
    rw [step_of_no_event he₂] at h₂
    cases h₁; cases h₂
    exact h
  case cons.command w =>
    rw [step_of_command he] at h₁
    rw [step_of_command he₂] at h₂
    exact (h.withEvents rest).acceptWord h₁ h₂
  case cons.reset =>
    rw [step_of_reset he] at h₁
    rw [step_of_reset he₂] at h₂
    cases h₁; cases h₂
    exact (h.withEvents rest).takeReset

/-- Settles O39: the invariant holds at reset, whatever the host is about to send, and every step keeps it. -/
theorem activeImpliesTableValid : Obligations.ActiveImpliesTableValid := by
  intro es n t hrun
  have hstart : (State.reset.facing es).Inv := State.reset_inv.of_same_elements rfl rfl rfl rfl
  exact (runSteps_keeps (fun _ _ => State.Inv.step) n hstart hrun).active

/-- Settles O40, from what a step can do to the table. -/
theorem tableChangesOnlyByGenOrReset : Obligations.TableChangesOnlyByGenOrReset :=
  fun _ _ hstep hne => (step_table_cases hstep).resolve_left hne

/-- Settles O41, from what a step can do to each flag. -/
theorem flagsChangeOnlyByTheirCommands : Obligations.FlagsChangeOnlyByTheirCommands := by
  intro s t hstep
  have htvalid := step_tvalid_cases hstep
  have hactive := step_active_cases hstep
  refine ⟨fun hs ht => ?_, fun hs ht => ?_, fun hs ht => ?_, fun hs ht => ?_⟩
  · simpa [hs, ht] using htvalid
  · simpa [hs, ht] using htvalid
  · simpa [hs, ht] using hactive
  · simpa [hs, ht] using hactive

/-- Settles O53: the steps before the last and from it on, and the pace at the port. -/
theorem generatorSequencingFillsTable : Obligations.GeneratorSequencingFillsTable := by
  constructor
  · intro s p n htvalid
    rcases Nat.lt_or_ge n 2304 with hn | hn
    · obtain ⟨g, hg⟩ := Job.run_generating_before p s hn
      rw [hg]
      exact ⟨fun _ => ⟨htvalid, g, rfl⟩, fun hge => absurd hn (Nat.not_lt.mpr hge), rfl, rfl, rfl, rfl⟩
    · rw [Job.run_generating_after p s hn]
      exact ⟨fun hlt => absurd hlt (Nat.not_lt.mpr hn), fun _ => ⟨rfl, State.fillTable_read p s, rfl⟩, rfl, rfl, rfl, rfl⟩
  · intro c p is hidle ha hlen hrst
    rw [PortState.run, PortState.cycle_idle rfl hidle, if_pos rfl, PortState.accept_gen p ha]
    exact PortState.run_afterCycles hlen hrst

/-- Settles O1: the reset values of R22, field by field. -/
theorem resetStateHoldsNoValues : Obligations.ResetStateHoldsNoValues :=
  ⟨rfl, rfl, rfl, Memory.read_nil, rfl, rfl⟩

/-- Settles O37: at reset the table is empty and both flags are 0. -/
theorem resetMeetsStateInvariant : Obligations.ResetMeetsStateInvariant := State.reset_inv

end Sys2Proof.Machine

/-! Proofs of the memory family (20_memory.md). First the order of the table after a GEN; then what a word and an event do at the port of
transactions; then the statements. -/

namespace Sys2Proof.Machine

/-! The table in index order (R24). -/

/-- A write behind a part of smaller indices leaves that part alone. -/
theorem Memory.write_append {l : Memory} {a : Nat} (m : Memory) (v : Word) (hl : ∀ c ∈ l, c.1 < a) :
    Memory.write (l ++ m) a v = l ++ Memory.write m a v := by
  induction l with
  | nil => rfl
  | cons c l ih =>
    obtain ⟨hc, hl⟩ := List.forall_mem_cons.mp hl
    rw [List.cons_append, Memory.write_cons, if_neg (by omega), if_neg (by omega), ih hl, List.cons_append]

/-- A write at the lower bound of a canonical memory becomes its first cell, whether the index was listed or not. -/
theorem Memory.write_at_bound {lo : Nat} {m : Memory} (v : Word) (h : Memory.wfFrom lo m = true) :
    ∃ rest, m.write lo v = (lo, v) :: rest ∧ Memory.wfFrom (lo + 1) rest = true := by
  cases m with
  | nil => exact ⟨[], rfl, rfl⟩
  | cons c m =>
    simp only [Memory.wfFrom, Bool.and_eq_true, decide_eq_true_eq] at h
    obtain ⟨⟨hlo, hc⟩, hm⟩ := h
    rw [Memory.write_cons]
    rcases Nat.lt_or_eq_of_le hlo with hlt | rfl
    · exact ⟨c :: m, if_pos hlt, by simp [Memory.wfFrom, hc, hm, Nat.succ_le_of_lt hlt]⟩
    · exact ⟨m, by simp, hm⟩

/-- After the writes at `0 .. n-1` their cells come first, in order, and what is left of the old memory lies from `n` on. -/
theorem Memory.writeAll_range (f : Nat → Word) (n : Nat) {m : Memory} (h : m.wf = true) :
    ∃ rest, m.writeAll f (List.range n) = (List.range n).map (fun b => (b, f b)) ++ rest
      ∧ Memory.wfFrom n rest = true := by
  induction n with
  | zero => exact ⟨m, by simp [Memory.writeAll], h⟩
  | succ n ih =>
    obtain ⟨rest, hfirst, hrest⟩ := ih
    obtain ⟨rest', hwrite, hrest'⟩ := Memory.write_at_bound (f n) hrest
    refine ⟨rest', ?_, hrest'⟩
    rw [Memory.writeAll_range_succ, hfirst, Memory.write_append _ _ (by simp), hwrite, List.range_succ]
    simp

/-- A canonical memory lists no index from the table's depth on (R23). -/
theorem Memory.eq_nil_of_wfFrom_tableDepth {m : Memory} (h : Memory.wfFrom Config.tableDepth m = true) : m = [] := by
  cases m with
  | nil => rfl
  | cons c m =>
    simp only [Memory.wfFrom, Bool.and_eq_true, decide_eq_true_eq] at h
    omega

theorem State.fillTable_table (p : Word) {s : State} (h : s.table.wf = true) :
    (s.fillTable p).table = (List.range 256).map fun b => (b, tableEntry (BitVec.ofNat 8 b) p) := by
  obtain ⟨rest, hfill, hrest⟩ :=
    Memory.writeAll_range (fun b => tableEntry (BitVec.ofNat 8 b) p) Config.tableDepth h
  rw [State.fillTable, State.writeEntries_table, hfill, Memory.eq_nil_of_wfFrom_tableDepth hrest, List.append_nil]

/-! The host's later events: no command reads or writes them (R8, R97). -/

theorem State.execute_withEvents (i : Instr) (s : State) (es : List HostEvent) :
    State.execute i { s with events := es } = { State.execute i s with events := es } := by
  cases i <;> rfl

theorem exec_withEvents {i : Instr} {s t : State} (h : exec i s = .next t) (es : List HostEvent) :
    exec i { s with events := es } = .next { t with events := es } := by
  have hflags := s.accepts_withEvents es i
  cases ha : s.accepts i <;> rw [ha] at hflags
  · rw [exec_of_not_accepts ha] at h
    cases h
    exact exec_of_not_accepts hflags
  · rw [exec_of_accepts ha] at h
    cases h
    rw [exec_of_accepts hflags, State.execute_withEvents]

theorem acceptWord_withEvents {w : CmdWord} {s t : State} (h : acceptWord w s = .next t) (es : List HostEvent) :
    acceptWord w { s with events := es } = .next { t with events := es } := by
  cases hd : decode w with
  | instr i =>
    rw [acceptWord_of_instr _ hd] at h ⊢
    exact exec_withEvents h es
  | illegal why =>
    rw [acceptWord_of_illegal _ hd] at h ⊢
    cases h
    rfl

/-- With the events that were there put back in, the outcome is the same. -/
theorem acceptWord_events {w : CmdWord} {s t : State} (h : acceptWord w s = .next t) : t.events = s.events := by
  have hsame : Host.Outcome.next t = .next { t with events := s.events } :=
    h.symm.trans (acceptWord_withEvents h s.events)
  exact (congrArg State.events (Host.Outcome.next.inj hsame) :)

/-! Steps in a row. -/

theorem runSteps_succ {s t : State} (n : Nat) (h : step s = .next t) : runSteps (n + 1) s = runSteps n t := by
  rw [runSteps, h]

theorem commandCount_cons (e : HostEvent) (es : List HostEvent) :
    commandCount (e :: es) = commandCount [e] + commandCount es := by
  cases e <;> simp [commandCount, Nat.add_comm]

/-- The step of one event takes it off the port, and answers it if it is a command. -/
theorem step_of_event {s : State} {e : HostEvent} {rest : List HostEvent} (h : s.events = e :: rest) :
    ∃ t rs, step s = .next t ∧ t.events = rest ∧ t.responses = s.responses ++ rs ∧ rs.length = commandCount [e] := by
  cases e with
  | command w =>
    obtain ⟨t, r, hacc, hresp⟩ := acceptWord_answers w { s with events := rest }
    exact ⟨t, [r], (step_of_command h).trans hacc, acceptWord_events hacc, hresp, rfl⟩
  | reset => exact ⟨_, [], step_of_reset h, rfl, (List.append_nil _).symm, rfl⟩

/-- A word offered ahead of other events is answered as if it stood alone. -/
theorem step_of_offered_word {w : CmdWord} {s t : State} (h : acceptWord w s = .next t) (es : List HostEvent) :
    step { s with events := .command w :: es } = .next { t with events := es } :=
  (step_of_command rfl).trans (acceptWord_withEvents h es)

/-! The cycles of the port. -/

theorem PortState.cycle_of_rst {c : PortState} {i : PortIn} (h : i.rst = true) :
    c.cycle i = (⟨false, none⟩, (c.withCore c.core.takeReset).enter .idle) := by
  simp [PortState.cycle, h]

theorem PortState.cycle_of_busy {c : PortState} {i : PortIn} (hr : i.rst = false) (h : c.phase ≠ .idle) :
    c.cycle i = (⟨false, c.work.1⟩, c.work.2) := by
  simp [PortState.cycle, hr, h]

/-- One word offered to an idle block by a host that then waits for its response, and the words after it. -/
theorem PortState.run_offerWords_cons {c : PortState} {w : CmdWord} {t : State} {r : Response} (ws : List CmdWord)
    (hidle : c.phase = .idle) (hacc : acceptWord w c.core = .next t) (hresp : t.responses = c.core.responses ++ [r])
    {rs : List Response} {d : PortState}
    (hrest : PortState.run (offerWords (c.accepted + 1) ws) ⟨t, .idle, c.accepted + 1⟩
      = (answerWords (c.accepted + 1) rs, d)) :
    PortState.run (offerWords c.accepted (w :: ws)) c = (answerWords c.accepted (r :: rs), d) := by
  have hword := PortState.run_word (is := List.replicate (Config.extraLatency (c.accepted + 1) + 1) ⟨false, false, 0⟩)
    hidle hacc List.length_replicate (fun i hi => by rw [List.eq_of_mem_replicate hi])
  rw [offerWords, ← List.cons_append, PortState.run_append, hword, hrest, State.newestWord_of_append hresp]
  simp [answerWords]

/-! The statements. -/

/-- Settles O55, by induction on the words: each is answered as by `step` and leaves the block idle for the next. -/
theorem portAnswersWordsInOrder : Obligations.PortAnswersWordsInOrder := by
  intro c ws hidle
  induction ws generalizing c with
  | nil =>
    obtain ⟨core, phase, accepted⟩ := c
    subst hidle
    exact ⟨core, [], rfl, (List.append_nil _).symm, rfl, rfl⟩
  | cons w ws ih =>
    obtain ⟨t₁, r, hacc, hresp⟩ := acceptWord_answers w c.core
    obtain ⟨t, rs, hsteps, hresps, hlen, hrun⟩ := ih ⟨t₁, .idle, c.accepted + 1⟩ rfl
    rw [acceptWord_events hacc] at hsteps
    refine ⟨t, r :: rs, (runSteps_succ _ (step_of_offered_word hacc _)).trans hsteps, ?_, congrArg (· + 1) hlen, ?_⟩
    · rw [hresps, hresp, List.append_assoc, List.singleton_append]
    · rw [PortState.run_offerWords_cons ws hidle hacc hresp hrun, List.length_cons, Nat.add_right_comm, Nat.add_assoc]

/-- Settles O35, by induction on the list of events. -/
theorem oneResponsePerCommand : Obligations.OneResponsePerCommand := by
  intro s
  induction hes : s.events generalizing s with
  | nil => exact ⟨s, [], rfl, hes, (List.append_nil _).symm, rfl⟩
  | cons e rest ih =>
    obtain ⟨u, rs₁, hstep, hevents, hresp, hlen⟩ := step_of_event hes
    obtain ⟨t, rs₂, hrun, hempty, hresps, hlens⟩ := ih u hevents
    refine ⟨t, rs₁ ++ rs₂, (runSteps_succ _ hstep).trans hrun, hempty, ?_, ?_⟩
    · rw [hresps, hresp, List.append_assoc]
    · rw [List.length_append, hlen, hlens, commandCount_cons e rest]

/-- Settles O25: the loop of R56 leaves the written cells in order and nothing behind them. -/
theorem genTableIsInByteOrder : Obligations.GenTableIsInByteOrder :=
  fun _ p hidle hwf => ⟨_, exec_gen_of_idle p hidle, State.fillTable_table p hwf⟩

/-- Settles O52, by what a cycle can do: in a reset and in the middle of a command the offered word is not read. -/
theorem portTakesOneCommandAtATime : Obligations.PortTakesOneCommandAtATime := by
  intro c i
  obtain ⟨hr, hcycle⟩ | ⟨hr, hidle, hcycle⟩ | ⟨hr, hbusy, hcycle⟩ := c.cycle_cases i <;> rw [hcycle]
  · exact ⟨by simp [hr], fun _ => rfl, fun _ v w => PortState.cycle_of_rst hr⟩
  · exact ⟨by simp [hr, hidle], fun _ => rfl, fun h => absurd h.symm Bool.false_ne_true⟩
  · exact ⟨by simp [hbusy], fun h => absurd h Bool.false_ne_true, fun _ v w => PortState.cycle_of_busy hr hbusy⟩

end Sys2Proof.Machine

/-! Proofs of the encoding family (30_encoding.md). First the fields and the number of a command's word, with decode as the inverse of encode;
then the response word; then the lines of R50 to R52; then a computation as a run of steps and its response; then the statements. -/

namespace Sys2Proof.Machine

/-! The fields of a word put together from them (R37, R46). -/

theorem opField_append (op : BitVec 4) (arg : Word) : opField (op ++ arg) = op := by
  apply BitVec.eq_of_toNat_eq
  rw [opField_toNat, cmdWord_toNat]
  omega

theorem argField_append (op : BitVec 4) (arg : Word) : argField (op ++ arg) = arg := by
  apply BitVec.eq_of_toNat_eq
  rw [argField_toNat, cmdWord_toNat]
  omega

theorem argHigh_append (op : BitVec 4) (h l : Byte) : argHigh (op ++ (h ++ l : Word)) = h := by
  apply BitVec.eq_of_toNat_eq
  rw [argHigh_toNat, cmdWord_toNat, word_toNat]
  omega

theorem argLow_append (op : BitVec 4) (h l : Byte) : argLow (op ++ (h ++ l : Word)) = l := by
  apply BitVec.eq_of_toNat_eq
  rw [argLow_toNat, cmdWord_toNat, word_toNat]
  omega

@[simp] theorem opField_encode (i : Instr) : opField (encode i) = opcodeOf i := opField_append _ _

@[simp] theorem argField_encode (i : Instr) : argField (encode i) = argumentOf i := argField_append _ _

/-- R41 to R46, pattern by pattern; the operand of FINAL has two values only. -/
theorem decode_encode (i : Instr) : decode (encode i) = .instr i := by
  cases i with
  | gen p => exact decode_encode_gen p
  | rdtab i =>
    have hhigh : argHigh (encode (.rdtab i)) = 0 := argHigh_append 2 0 i
    have hlow : argLow (encode (.rdtab i)) = i := argLow_append 2 0 i
    simp [decode, opcodeOf, whenZero, hhigh, hlow]
  | init v => simp [decode, opcodeOf, argumentOf]
  | update b =>
    have hhigh : argHigh (encode (.update b)) = 0 := argHigh_append 4 0 b
    have hlow : argLow (encode (.update b)) = b := argLow_append 4 0 b
    simp [decode, opcodeOf, whenZero, hhigh, hlow]
  | final n => cases n <;> decide

/-! The word of a command as a number (R50). -/

theorem zero_append_toNat (b : Byte) : ((0 : Byte) ++ b : Word).toNat = b.toNat := by
  rw [word_toNat, show (0 : Byte).toNat = 0 from rfl, Nat.zero_mul, Nat.zero_add]

theorem encode_gen_toNat (p : Word) : (encode (.gen p)).toNat = 0x10000 + p.toNat := by
  simp [encode_toNat, opcodeOf, argumentOf]

theorem encode_rdtab_toNat (i : Byte) : (encode (.rdtab i)).toNat = 0x20000 + i.toNat := by
  rw [encode_toNat, argumentOf, zero_append_toNat]
  simp [opcodeOf]

theorem encode_init_toNat (v : Word) : (encode (.init v)).toNat = 0x30000 + v.toNat := by
  simp [encode_toNat, opcodeOf, argumentOf]

theorem encode_update_toNat (b : Byte) : (encode (.update b)).toNat = 0x40000 + b.toNat := by
  rw [encode_toNat, argumentOf, zero_append_toNat]
  simp [opcodeOf]

theorem encode_final_toNat (n : Bool) : (encode (.final n)).toNat = 0x50000 + n.toNat := by
  rw [encode_toNat, argumentOf_final_toNat]
  simp [opcodeOf]

/-! Legal words (R47, R48, R84). -/

/-- The word of a command has none of the illegal numbers. -/
theorem not_illegalWord_encode (i : Instr) : ¬ IllegalWord (encode i) := by
  unfold IllegalWord opNumber argNumber
  cases i with
  | gen p => rw [encode_gen_toNat]; omega
  | rdtab i => rw [encode_rdtab_toNat]; omega
  | init v => rw [encode_init_toNat]; omega
  | update b => rw [encode_update_toNat]; omega
  | final n =>
    have hn := n.toNat_le
    rw [encode_final_toNat]
    omega

/-- A word that decodes to a command is that command's word, so a word with an illegal number decodes to none. -/
theorem decode_of_illegalWord {w : CmdWord} (h : IllegalWord w) : ∃ why, decode w = .illegal why := by
  cases hd : decode w with
  | instr i => exact absurd (encode_of_decode hd ▸ h) (not_illegalWord_encode i)
  | illegal why => exact ⟨why, rfl⟩

/-- The legal words are the commands, one for one. -/
def legalWordEquiv : {w : CmdWord // ∃ i, decode w = .instr i} ≃ Instr where
  toFun w := (decode w.1).toInstr?.get (by obtain ⟨i, hi⟩ := w.2; rw [hi]; rfl)
  invFun i := ⟨encode i, i, decode_encode i⟩
  left_inv := by
    rintro ⟨w, i, hi⟩
    simp [hi, Decoded.toInstr?, encode_of_decode hi]
  right_inv i := by simp [decode_encode, Decoded.toInstr?]

/-- The commands are the values of their operands, row after row of R40. -/
def instrEquiv : Instr ≃ Word ⊕ Byte ⊕ Word ⊕ Byte ⊕ Bool where
  toFun
    | .gen p => .inl p
    | .rdtab i => .inr (.inl i)
    | .init v => .inr (.inr (.inl v))
    | .update b => .inr (.inr (.inr (.inl b)))
    | .final n => .inr (.inr (.inr (.inr n)))
  invFun
    | .inl p => .gen p
    | .inr (.inl i) => .rdtab i
    | .inr (.inr (.inl v)) => .init v
    | .inr (.inr (.inr (.inl b))) => .update b
    | .inr (.inr (.inr (.inr n))) => .final n
  left_inv i := by cases i <;> rfl
  right_inv := by rintro (p | i | v | b | n) <;> rfl

/-- R48's count, row after row of R40. -/
theorem card_instr : Nat.card Instr = 65536 + 256 + 65536 + 256 + 2 := by
  simp [Nat.card_congr instrEquiv, ← FinEnum.card_eq_fintypeCard]

/-! The response word (R38, R83). -/

theorem Response.word_toNat (r : Response) : r.word.toNat = r.status.code.toNat * 65536 + r.data.toNat := by
  have h : r.word.toNat = r.status.code.toNat <<< 16 ||| r.data.toNat := BitVec.toNat_append r.status.code r.data
  rw [h, ← Nat.shiftLeft_add_eq_or_of_lt r.data.isLt, Nat.shiftLeft_eq]

theorem Status.code_lt (e : Status) : e.code.toNat < 5 := by
  cases e <;> decide

theorem Status.code_injective {e f : Status} (h : e.code.toNat = f.code.toNat) : e = f := by
  revert h
  cases e <;> cases f <;> decide

theorem Response.word_injective {r q : Response} (h : r.word = q.word) : r = q := by
  have hnat := congrArg BitVec.toNat h
  rw [Response.word_toNat, Response.word_toNat] at hnat
  obtain ⟨e, d⟩ := r
  obtain ⟨f, x⟩ := q
  simp only at hnat
  have hcode : e = f := Status.code_injective (by omega)
  have hdata : d = x := BitVec.eq_of_toNat_eq (by omega)
  rw [hcode, hdata]

/-- Of the accepted commands only RDTAB and FINAL return a value. -/
theorem State.execute_responses (i : Instr) (s : State) :
    ∃ d, (s.execute i).responses = s.responses ++ [⟨.ok, d⟩]
      ∧ (d ≠ 0 → (∃ x, i = .rdtab x) ∨ ∃ n, i = .final n) := by
  cases i with
  | gen _ | init _ | update _ => exact ⟨0, rfl, fun h => absurd rfl h⟩
  | rdtab x => exact ⟨_, rfl, fun _ => .inl ⟨x, rfl⟩⟩
  | final n => exact ⟨_, rfl, fun _ => .inr ⟨n, rfl⟩⟩

/-! The lines (R50 to R52). -/

theorem assembleLine_of_wellFormed {l : Line} (h : l.wellFormed = true) : assembleLine l = some (lineWords l) := by
  simp [assembleLine, h]

theorem assembleLine_of_not_wellFormed {l : Line} (h : l.wellFormed = false) : assembleLine l = none := by
  simp [assembleLine, h]

@[simp] theorem optBelow_some (bound n : Nat) : optBelow bound (some n) = decide (n < bound) := rfl

/-- The number of a line's word is that of the command's word. -/
theorem wordOf_eq_encode {op n : Nat} {i : Instr} (h : (encode i).toNat = op * 65536 + n) : wordOf op n = encode i := by
  rw [wordOf, ← h, BitVec.ofNat_toNat, BitVec.setWidth_eq]

theorem wordOf_gen (p : Word) : wordOf 1 p.toNat = encode (.gen p) := wordOf_eq_encode (encode_gen_toNat p)

theorem wordOf_rdtab (i : Byte) : wordOf 2 i.toNat = encode (.rdtab i) := wordOf_eq_encode (encode_rdtab_toNat i)

theorem wordOf_init (v : Word) : wordOf 3 v.toNat = encode (.init v) := wordOf_eq_encode (encode_init_toNat v)

theorem wordOf_update (b : Byte) : wordOf 4 b.toNat = encode (.update b) := wordOf_eq_encode (encode_update_toNat b)

theorem wordOf_final (n : Bool) : wordOf 5 n.toNat = encode (.final n) := wordOf_eq_encode (encode_final_toNat n)

theorem assembleLine_gen (p : Word) : assembleLine (.gen (some p.toNat)) = some [encode (.gen p)] := by
  rw [assembleLine_of_wellFormed (by simp [Line.wellFormed, p.isLt]), lineWords, Option.getD_some, wordOf_gen]

theorem assembleLine_rdtab (i : Byte) : assembleLine (.rdtab i.toNat) = some [encode (.rdtab i)] := by
  rw [assembleLine_of_wellFormed (by simp [Line.wellFormed, i.isLt]), lineWords, wordOf_rdtab]

theorem assembleLine_init (v : Word) : assembleLine (.init (some v.toNat)) = some [encode (.init v)] := by
  rw [assembleLine_of_wellFormed (by simp [Line.wellFormed, v.isLt]), lineWords, Option.getD_some, wordOf_init]

theorem assembleLine_update (b : Byte) : assembleLine (.update b.toNat) = some [encode (.update b)] := by
  rw [assembleLine_of_wellFormed (by simp [Line.wellFormed, b.isLt]), lineWords, wordOf_update]

theorem assembleLine_final (n : Bool) : assembleLine (.final (some n.toNat)) = some [encode (.final n)] := by
  rw [assembleLine_of_wellFormed (by cases n <;> rfl), lineWords, Option.getD_some, wordOf_final]

theorem assembleLine_raw (w : CmdWord) : assembleLine (.raw w.toNat) = some [w] := by
  rw [assembleLine_of_wellFormed (by simp [Line.wellFormed, w.isLt]), lineWords, BitVec.ofNat_toNat, BitVec.setWidth_eq]

/-- The data operand `D` stands for the bytes `d` (R52). -/
structure DenotesBytes (D : Data) (d : List Byte) : Prop where
  wellFormed : D.wellFormed = true
  numbers : dataNumbers D = d.map BitVec.toNat

theorem denotesBytes_bytes {d : List Byte} (h : d ≠ []) : DenotesBytes (.bytes (d.map BitVec.toNat)) d where
  wellFormed := by
    have hlt : ∀ b ∈ d, b.toNat < 256 := fun b _ => b.isLt
    simpa [Data.wellFormed, h] using hlt
  numbers := rfl

theorem denotesBytes_text {cs : List Char} (h : ∀ c ∈ cs, c.toNat < 128) : DenotesBytes (.text cs) (asciiBytes cs) where
  wellFormed := by simpa [Data.wellFormed] using h
  numbers := by
    have hcode : ∀ c ∈ cs, c.toNat = (BitVec.ofNat 8 c.toNat).toNat := fun c hc => by
      rw [BitVec.toNat_ofNat, Nat.mod_eq_of_lt (by have := h c hc; omega)]
    simpa [dataNumbers, asciiBytes] using hcode

theorem DenotesBytes.updateWords {D : Data} {d : List Byte} (h : DenotesBytes D d) :
    (dataNumbers D).map (wordOf 4) = d.map fun b => encode (.update b) := by
  rw [h.numbers, List.map_map]
  exact List.map_congr_left fun b _ => wordOf_update b

theorem DenotesBytes.assembleLine_updates {D : Data} {d : List Byte} (h : DenotesBytes D d) :
    assembleLine (.updates D) = some (d.map fun b => encode (.update b)) := by
  rw [assembleLine_of_wellFormed (l := .updates D) h.wellFormed, lineWords, h.updateWords]

/-- COMPUTE with any of its operands omitted; the flag is written only after the initial value. -/
theorem DenotesBytes.assembleLine_compute {D : Data} {d : List Byte} (h : DenotesBytes D d) (v : Option Word) (n : Option Bool)
    (horder : (v.isSome || n.isNone) = true) :
    assembleLine (.compute D (v.map BitVec.toNat) (n.map Bool.toNat))
      = some ((computeCommands d (v.getD Config.initDefault) (n.getD Config.invertDefault)).map encode) := by
  have hv : optBelow 65536 (v.map BitVec.toNat) = true := by
    cases v with
    | none => rfl
    | some v => simpa using v.isLt
  have hn : optBelow 2 (n.map Bool.toNat) = true := by
    cases n with
    | none => rfl
    | some n => simpa using n.toNat_lt
  rw [assembleLine_of_wellFormed (by simpa [Line.wellFormed, h.wellFormed, hv, hn] using horder), lineWords,
    h.updateWords, Option.getD_map, Option.getD_map, wordOf_init, wordOf_final]
  simp [computeCommands]

/-! A computation as a run of steps (R72). Each lemma leaves the steps after its own to run. -/

theorem State.lookup_eq {s : State} {T : Byte → Word} (h : ∀ i : Byte, s.table.read i.toNat = some (T i)) :
    s.lookup = T := by
  funext i
  rw [State.lookup, h i, Option.getD_some]

theorem State.crcValue_eq {s : State} {c : Word} (h : s.crc = some c) : s.crcValue = c := by
  rw [State.crcValue, h, Option.getD_some]

theorem exec_update_of_crc {s : State} {T : Byte → Word} {c : Word} (b : Byte) (ha : s.active = true) (hc : s.crc = some c)
    (hT : ∀ i : Byte, s.table.read i.toNat = some (T i)) :
    exec (.update b) s = .next ((s.setCrc (upd c b T)).respond .ok 0) := by
  rw [exec_update_of_active b ha, State.crcValue_eq hc, State.lookup_eq hT]

theorem exec_final_of_crc {s : State} {c : Word} (f : Bool) (ha : s.active = true) (hc : s.crc = some c) :
    exec (.final f) s = .next ((s.dropCrc.setActive false).respond .ok (fin c f)) := by
  rw [exec_final_of_active f ha, State.crcValue_eq hc]

/-- A command offered ahead of other events runs on the state that faces those. -/
theorem step_facing_command (s : State) (i : Instr) (es : List HostEvent) :
    step (s.facing (.command (encode i) :: es)) = exec i (s.facing es) :=
  (step_of_command rfl).trans (acceptWord_of_instr _ (decode_encode i))

theorem runSteps_init {s : State} (v : Word) (n : Nat) (rest : List HostEvent) (h : s.tvalid = true) :
    runSteps (n + 1) (s.facing (commandEvents [.init v] ++ rest))
      = runSteps n ((((s.setCrc v).setActive true).respond .ok 0).facing rest) :=
  runSteps_succ n ((step_facing_command s (.init v) rest).trans (exec_init_of_valid v h))

theorem runSteps_final {s : State} {c : Word} (f : Bool) (n : Nat) (rest : List HostEvent) (ha : s.active = true)
    (hc : s.crc = some c) :
    runSteps (n + 1) (s.facing (commandEvents [.final f] ++ rest))
      = runSteps n (((s.dropCrc.setActive false).respond .ok (fin c f)).facing rest) :=
  runSteps_succ n ((step_facing_command s (.final f) rest).trans (exec_final_of_crc f ha hc))

/-- The state after the UPDATEs of `d` from register `c`. -/
def State.folded (s : State) (T : Byte → Word) (c : Word) (d : List Byte) : State :=
  { s with crc := some (foldBytes T c d), responses := s.responses ++ List.replicate d.length ⟨.ok, 0⟩ }

theorem State.folded_nil {s : State} (T : Byte → Word) {c : Word} (h : s.crc = some c) : s.folded T c [] = s := by
  simp [State.folded, foldBytes, ← h]

theorem State.folded_cons (s : State) (T : Byte → Word) (c : Word) (b : Byte) (d : List Byte) :
    ((s.setCrc (upd c b T)).respond .ok 0).folded T (upd c b T) d = s.folded T c (b :: d) := by
  simp [State.folded, State.respond, State.setCrc, foldBytes, List.replicate_succ]

/-- UPDATEs fold their bytes in order, each answered OK 0x0000. -/
theorem runSteps_updates {s : State} {T : Byte → Word} {c : Word} (d : List Byte) (n : Nat) (rest : List HostEvent)
    (ha : s.active = true) (hc : s.crc = some c) (hT : ∀ i : Byte, s.table.read i.toNat = some (T i)) :
    runSteps (n + d.length) (s.facing (commandEvents (d.map .update) ++ rest))
      = runSteps n ((s.folded T c d).facing rest) := by
  induction d generalizing s c with
  | nil => rw [State.folded_nil T hc]; rfl
  | cons b d ih =>
    have hstep := (step_facing_command s (.update b) (commandEvents (d.map .update) ++ rest)).trans
      (exec_update_of_crc b ha hc hT)
    rw [← State.folded_cons]
    exact (runSteps_succ (n + d.length) hstep).trans (ih (s := (s.setCrc (upd c b T)).respond .ok 0) ha rfl hT)

/-- R72, from every state with a complete valid table, whatever the host sends afterwards. -/
theorem runSteps_computeCommands {s : State} {T : Byte → Word} (d : List Byte) (v : Word) (f : Bool) (n : Nat)
    (rest : List HostEvent) (hs : s.tvalid = true) (hT : ∀ i : Byte, s.table.read i.toNat = some (T i)) :
    runSteps (n + 1 + d.length + 1) (s.facing (commandEvents (computeCommands d v f) ++ rest)) = runSteps n
      { s with
        crc := none
        active := false
        events := rest
        responses := s.responses ++ List.replicate (d.length + 1) ⟨.ok, 0⟩ ++ [⟨.ok, compute d T v f⟩] } := by
  have hevents : commandEvents (computeCommands d v f) ++ rest
      = commandEvents [.init v] ++ (commandEvents (d.map .update) ++ (commandEvents [.final f] ++ rest)) := by
    simp [commandEvents, computeCommands]
  have hupdates := runSteps_updates (s := ((s.setCrc v).setActive true).respond .ok 0) d (n + 1)
    (commandEvents [.final f] ++ rest) rfl rfl hT
  rw [hevents, runSteps_init v _ _ hs, hupdates, runSteps_final f n rest rfl rfl]
  simp [State.folded, State.facing, State.respond, State.setCrc, State.setActive, State.dropCrc, compute,
    List.replicate_succ]

/-! The response of a COMPUTE (R52). -/

theorem macroResponse_cons (q : Response) {rs : List Response} (h : rs ≠ []) :
    macroResponse (q :: rs) = if q.status = .ok then macroResponse rs else none := by
  cases rs with
  | nil => exact absurd rfl h
  | cons => rfl

theorem macroResponse_of_ok {rs : List Response} (r : Response) (h : ∀ q ∈ rs, q.status = .ok) :
    macroResponse (rs ++ [r]) = some r := by
  induction rs with
  | nil => rfl
  | cons q rs ih =>
    obtain ⟨hq, hrs⟩ := List.forall_mem_cons.mp h
    rw [List.cons_append, macroResponse_cons q (by simp), if_pos hq, ih hrs]

theorem macroResponse_of_not_ok {rs : List Response} {q : Response} (r : Response) (hmem : q ∈ rs) (hq : q.status ≠ .ok) :
    macroResponse (rs ++ [r]) = none := by
  induction rs with
  | nil => cases hmem
  | cons p rs ih =>
    rw [List.cons_append, macroResponse_cons p (by simp)]
    split
    next hp =>
      have hne : q ≠ p := fun heq => hq (heq ▸ hp)
      exact ih ((List.mem_cons.mp hmem).resolve_left hne)
    next => rfl

/-! The statements. -/

/-- Settles O9, by the five patterns. -/
theorem decodeOfEncodeIsIdentity : Obligations.DecodeOfEncodeIsIdentity := decode_encode

/-- Settles O10: the fields of a decoded word are those of its command. -/
theorem decodedWordIsItsEncoding : Obligations.DecodedWordIsItsEncoding := fun _ _ => encode_of_decode

/-- Settles O12: the legal words are as many as the commands with their operands. -/
theorem legalWordCount : Obligations.LegalWordCount := (Nat.card_congr legalWordEquiv).trans card_instr

/-- Settles O34: an error and a reset carry no data, and of the accepted commands only RDTAB and FINAL do. -/
theorem onlyRdtabAndFinalReturnData : Obligations.OnlyRdtabAndFinalReturnData := by
  intro s t w rest hevents hstep
  obtain ⟨he, _⟩ | ⟨_, he, _⟩ | ⟨_, _, e, _, _, rfl⟩ | ⟨i, _, he, _, rfl⟩ := step_cases hstep
  · simp [he] at hevents
  · simp [he] at hevents
  · exact ⟨⟨e, 0⟩, rfl, fun h => absurd rfl h⟩
  · rw [he] at hevents
    cases hevents
    obtain ⟨d, hresp, hdata⟩ := State.execute_responses i { s with events := rest }
    refine ⟨⟨.ok, d⟩, hresp, fun hd => ⟨rfl, ?_⟩⟩
    obtain ⟨x, rfl⟩ | ⟨n, rfl⟩ := hdata hd
    · exact .inl ⟨x, rfl⟩
    · exact .inr ⟨n, rfl⟩

/-- Settles O50: the forms of COMPUTE and UPDATES for any data operand, at the bytes written as numbers and at an ASCII text. -/
theorem computeMacroExpands : Obligations.ComputeMacroExpands := by
  constructor
  · intro d v n hd
    have hD := denotesBytes_bytes hd
    exact ⟨hD.assembleLine_compute (some v) (some n) rfl, hD.assembleLine_compute (some v) none rfl,
      hD.assembleLine_compute none none rfl, hD.assembleLine_updates⟩
  · intro cs v n hcs
    have hD := denotesBytes_text hcs
    refine ⟨hD.assembleLine_compute (some v) (some n) rfl, hD.assembleLine_compute (some v) none rfl,
      hD.assembleLine_compute none none rfl, ?_⟩
    rw [hD.assembleLine_updates, asciiBytes, List.map_map]
    rfl

/-- Settles O56: the earlier responses of the run of a COMPUTE are all OK, so its response is the last, which carries the checksum. -/
theorem macroResponseIsTheLast : Obligations.MacroResponseIsTheLast := by
  refine ⟨fun _ r h => macroResponse_of_ok r h, fun _ _ r hmem hq => macroResponse_of_not_ok r hmem hq, ?_⟩
  intro s T d v n hs hT
  have hrun := runSteps_computeCommands d v n 0 [] hs hT
  have hlen : 0 + 1 + d.length + 1 = d.length + 2 := by omega
  rw [List.append_nil, hlen] at hrun
  refine ⟨_, _, hrun, List.append_assoc _ _ _, macroResponse_of_ok _ fun q hq => ?_⟩
  rw [List.eq_of_mem_replicate hq]

/-- Settles O6: an illegal word is decoded to no command, whatever the state. -/
theorem illegalWordChangesNothing : Obligations.IllegalWordChangesNothing := by
  intro s w rest hevents hw
  obtain ⟨why, hd⟩ := decode_of_illegalWord hw
  exact (step_of_command hevents).trans (acceptWord_of_illegal _ hd)

/-- Settles O8: the written words are those of their commands, and the numbers of the others are illegal. -/
theorem writtenWordsDecode : Obligations.WrittenWordsDecode :=
  ⟨decode_encode (.gen 0x1021), decode_encode (.rdtab 255), decode_encode (.init 0xFFFF), decode_encode (.update 0x31),
    decode_encode (.final true), decode_encode (.final false), decode_of_illegalWord (by decide),
    decode_of_illegalWord (by decide), decode_of_illegalWord (by decide), decode_of_illegalWord (by decide),
    decode_of_illegalWord (by decide)⟩

/-- Settles O11, from the two fields of each command's word. -/
theorem commandWordNumbers : Obligations.CommandWordNumbers :=
  ⟨encode_gen_toNat, encode_rdtab_toNat, encode_init_toNat, encode_update_toNat, encode_final_toNat⟩

/-- Settles O13: the word is read back from its number, and the status from its code. -/
theorem responseWordLayout : Obligations.ResponseWordLayout :=
  ⟨fun r => ⟨r.word_toNat, r.status.code_lt⟩, fun _ _ => Response.word_injective, rfl, rfl, rfl, rfl, rfl⟩

/-- Settles O48: in range the number is that of an operand of the command, out of range the line is not well-formed. -/
theorem linesDenoteTheirWords : Obligations.LinesDenoteTheirWords := by
  refine ⟨fun n hn => ?_, fun n hn => ?_, assembleLine_final false, assembleLine_final true, assembleLine_raw,
    fun n hn => ?_, fun n hn => ?_, fun n hn => ?_, fun n hn => ?_⟩
  · obtain ⟨x, rfl⟩ : ∃ x : Word, x.toNat = n := ⟨BitVec.ofNat 16 n, Nat.mod_eq_of_lt hn⟩
    rw [BitVec.ofNat_toNat, BitVec.setWidth_eq]
    exact ⟨assembleLine_gen _, assembleLine_init _⟩
  · obtain ⟨x, rfl⟩ : ∃ x : Byte, x.toNat = n := ⟨BitVec.ofNat 8 n, Nat.mod_eq_of_lt hn⟩
    rw [BitVec.ofNat_toNat, BitVec.setWidth_eq]
    exact ⟨assembleLine_rdtab _, assembleLine_update _⟩
  · have hrange := decide_eq_false (Nat.not_lt.mpr hn)
    exact ⟨assembleLine_of_not_wellFormed hrange, assembleLine_of_not_wellFormed hrange⟩
  · have hrange := decide_eq_false (Nat.not_lt.mpr hn)
    exact ⟨assembleLine_of_not_wellFormed hrange, assembleLine_of_not_wellFormed hrange⟩
  · exact assembleLine_of_not_wellFormed (decide_eq_false (Nat.not_lt.mpr hn))
  · exact assembleLine_of_not_wellFormed (decide_eq_false (Nat.not_lt.mpr hn))

/-- Settles O49: the defaults of R5 in the words of their commands. -/
theorem omittedOperandsTakeDefaults : Obligations.OmittedOperandsTakeDefaults :=
  ⟨by decide, by decide, by decide⟩

end Sys2Proof.Machine

/-! Proofs of the table generator family (40_table_gen.md). First the round: on integers, linear, on single bits; then the entries; then the frame of
every command; then the statements. -/

namespace Sys2Proof.Machine

/-! The round of R54, by the bit that leaves the register. -/

theorem crcRound_of_clear {w : Word} (p : Word) (h : w.getLsbD 15 = false) : crcRound w p = w <<< 1 := by
  rw [crcRound, h]
  exact if_neg Bool.false_ne_true

theorem crcRound_of_set {w : Word} (p : Word) (h : w.getLsbD 15 = true) : crcRound w p = (w <<< 1) ^^^ p := if_pos h

theorem crcRounds_eq_iterate (k : Nat) (w p : Word) : crcRounds k w p = (fun w => crcRound w p)^[k] w := by
  induction k generalizing w with
  | zero => rfl
  | succ k ih => exact ih (crcRound w p)

theorem crcRounds_succ (k : Nat) (w p : Word) : crcRounds (k + 1) w p = crcRound (crcRounds k w p) p := by
  rw [crcRounds_eq_iterate, crcRounds_eq_iterate, Function.iterate_succ_apply']

/-! The round on integers with no mask (C4): the bits above bit 15 are never tested. -/

theorem ofNat_wideRound (n : Nat) (p : Word) :
    BitVec.ofNat 16 (wideRound n p.toNat) = crcRound (BitVec.ofNat 16 n) p := by
  have hbit : (BitVec.ofNat 16 n).getLsbD 15 = n.testBit 15 := BitVec.getLsbD_ofNat 16 n 15
  have hshift : BitVec.ofNat 16 (2 * n) = BitVec.ofNat 16 n <<< 1 := by
    rw [Nat.mul_comm, BitVec.ofNat_mul, BitVec.shiftLeft_eq_mul_twoPow]
    rfl
  cases h : n.testBit 15
  · rw [crcRound_of_clear p (hbit.trans h), wideRound, h, ← hshift]
    rfl
  · rw [crcRound_of_set p (hbit.trans h), wideRound, if_pos h, BitVec.ofNat_xor, hshift, BitVec.ofNat_toNat,
      BitVec.setWidth_eq]

theorem ofNat_wideRounds (k n : Nat) (p : Word) :
    BitVec.ofNat 16 (wideRounds k n p.toNat) = crcRounds k (BitVec.ofNat 16 n) p := by
  induction k generalizing n with
  | zero => rfl
  | succ k ih => rw [wideRounds, ih, ofNat_wideRound, crcRounds]

theorem crcRound_toNat (w p : Word) : (crcRound w p).toNat = wideRound w.toNat p.toNat % 65536 := by
  have h := congrArg BitVec.toNat (ofNat_wideRound w.toNat p)
  rw [BitVec.ofNat_toNat, BitVec.setWidth_eq] at h
  exact h.symm

/-- In a 16-bit value bit 15 is set from 0x8000 on. -/
theorem wideRound_of_lt {n : Nat} (p : Nat) (h : n < 65536) :
    wideRound n p = if 32768 ≤ n then (2 * n) ^^^ p else 2 * n := by
  have hbit : n.testBit 15 = true ↔ 32768 ≤ n := by
    rw [Nat.testBit_eq_decide_div_mod_eq, decide_eq_true_eq]
    omega
  simp only [wideRound, hbit]

/-! The round is linear in the working value (R63). -/

theorem crcRound_xor (a c p : Word) : crcRound (a ^^^ c) p = crcRound a p ^^^ crcRound c p := by
  have hbit : (a ^^^ c).getLsbD 15 = (a.getLsbD 15 ^^ c.getLsbD 15) := BitVec.getLsbD_xor
  cases ha : a.getLsbD 15 <;> cases hc : c.getLsbD 15 <;> rw [ha, hc] at hbit
  · rw [crcRound_of_clear p ha, crcRound_of_clear p hc, crcRound_of_clear p hbit, BitVec.shiftLeft_xor_distrib]
  · rw [crcRound_of_clear p ha, crcRound_of_set p hc, crcRound_of_set p hbit, BitVec.shiftLeft_xor_distrib,
      BitVec.xor_assoc]
  · rw [crcRound_of_set p ha, crcRound_of_clear p hc, crcRound_of_set p hbit, BitVec.shiftLeft_xor_distrib]
    ac_rfl
  · have hcancel : (a <<< 1 ^^^ p) ^^^ (c <<< 1 ^^^ p) = (a <<< 1 ^^^ c <<< 1) ^^^ (p ^^^ p) := by ac_rfl
    rw [crcRound_of_set p ha, crcRound_of_set p hc, crcRound_of_clear p hbit, hcancel, BitVec.xor_self,
      BitVec.xor_zero, BitVec.shiftLeft_xor_distrib]

theorem crcRounds_xor (k : Nat) (a c p : Word) : crcRounds k (a ^^^ c) p = crcRounds k a p ^^^ crcRounds k c p := by
  induction k generalizing a c with
  | zero => rfl
  | succ k ih => rw [crcRounds, crcRound_xor, ih, crcRounds, crcRounds]

/-! Rounds that only shift. -/

theorem crcRounds_zero_word (k : Nat) (p : Word) : crcRounds k 0 p = 0 := by
  induction k with
  | zero => rfl
  | succ k ih => exact ih

theorem crcRound_zero_polynomial (w : Word) : crcRound w 0 = w <<< 1 := by
  cases h : w.getLsbD 15
  · exact crcRound_of_clear 0 h
  · exact (crcRound_of_set 0 h).trans BitVec.xor_zero

theorem crcRounds_zero_polynomial (k : Nat) (w : Word) : crcRounds k w 0 = w <<< k := by
  induction k with
  | zero => exact (BitVec.shiftLeft_zero w).symm
  | succ k ih => rw [crcRounds_succ, ih, crcRound_zero_polynomial, BitVec.shiftLeft_add]

/-- A single bit moves up unchanged until it stands in bit 15. -/
theorem crcRounds_twoPow {k i : Nat} (p : Word) (h : i + k ≤ 15) :
    crcRounds k (BitVec.twoPow 16 i) p = BitVec.twoPow 16 (i + k) := by
  induction k with
  | zero => rfl
  | succ k ih =>
    have hclear : (BitVec.twoPow 16 (i + k)).getLsbD 15 = false := by
      rw [BitVec.getLsbD_twoPow, decide_eq_false (show ¬ i + k = 15 by omega), Bool.and_false]
    rw [crcRounds_succ, ih (by omega), crcRound_of_clear p hclear, BitVec.twoPow_eq, BitVec.twoPow_eq,
      ← BitVec.shiftLeft_add, Nat.add_assoc]

/-! The entries of R55. -/

theorem atHigh_eq_ofNat (b : Byte) : atHigh b = BitVec.ofNat 16 (b.toNat * 256) := by
  apply BitVec.eq_of_toNat_eq
  rw [atHigh_toNat, BitVec.toNat_ofNat, Nat.mod_eq_of_lt (by omega)]

theorem tableEntry_xor (a c : Byte) (p : Word) : tableEntry (a ^^^ c) p = tableEntry a p ^^^ tableEntry c p := by
  rw [tableEntry, atHigh_xor, crcRounds_xor, tableEntry, tableEntry]

theorem tableEntry_zero (p : Word) : tableEntry 0 p = 0 := crcRounds_zero_word Config.roundsPerEntry p

/-- Seven rounds bring the bit of byte 1 to bit 15, and the eighth leaves the polynomial. -/
theorem tableEntry_one (p : Word) : tableEntry 1 p = p := by
  have hseven : crcRounds 7 (atHigh 1) p = BitVec.twoPow 16 15 := crcRounds_twoPow (i := 8) p le_rfl
  rw [tableEntry, Config.roundsPerEntry, crcRounds_succ, hseven, crcRound_of_set p (by decide)]
  exact BitVec.zero_xor

/-- With no polynomial the eight rounds shift the byte out. -/
theorem tableEntry_zero_polynomial (b : Byte) : tableEntry b 0 = 0 := by
  rw [tableEntry, crcRounds_zero_polynomial]
  apply BitVec.eq_of_toNat_eq
  rw [BitVec.toNat_shiftLeft, atHigh_toNat, Nat.shiftLeft_eq, Nat.mul_assoc]
  exact Nat.mul_mod_left _ _

/-- The XOR of the powers of two set below bit `n` has just those bits. -/
theorem getLsbD_xor_of_powers (b : Byte) (n i : Nat) (hi : i < 8) :
    (((List.range n).filter fun k => b.getLsbD k).foldl (fun x k => x ^^^ BitVec.ofNat 8 (2 ^ k)) 0).getLsbD i
      = (decide (i < n) && b.getLsbD i) := by
  induction n with
  | zero => simp
  | succ n ih =>
    have hpower : (BitVec.ofNat 8 (2 ^ n)).getLsbD i = decide (n = i) := by
      rw [BitVec.getLsbD_ofNat, decide_eq_true hi, Bool.true_and, Nat.testBit_two_pow]
    rw [List.range_succ, List.filter_append, List.foldl_append]
    cases hb : b.getLsbD n
    · rw [List.filter_cons_of_neg (by simpa using hb), List.filter_nil, List.foldl_nil, ih]
      grind
    · rw [List.filter_cons_of_pos (by simpa using hb), List.filter_nil, List.foldl_cons, List.foldl_nil,
        BitVec.getLsbD_xor, ih, hpower]
      grind

theorem byte_eq_xor_of_powers (b : Byte) :
    ((List.range 8).filter fun k => b.getLsbD k).foldl (fun x k => x ^^^ BitVec.ofNat 8 (2 ^ k)) 0 = b := by
  apply BitVec.eq_of_getLsbD_eq
  intro i hi
  rw [getLsbD_xor_of_powers b 8 i hi, decide_eq_true hi, Bool.true_and]

theorem tableEntry_eq_xor_of_powers (b : Byte) (p : Word) :
    tableEntry b p
      = ((List.range 8).filter fun k => b.getLsbD k).foldl (fun x k => x ^^^ tableEntry (BitVec.ofNat 8 (2 ^ k)) p) 0 := by
  have h := List.foldl_hom (tableEntry · p) (l := (List.range 8).filter fun k => b.getLsbD k)
    (g₁ := fun x k => x ^^^ BitVec.ofNat 8 (2 ^ k)) (g₂ := fun x k => x ^^^ tableEntry (BitVec.ofNat 8 (2 ^ k)) p)
    (init := (0 : Byte)) fun x k => (tableEntry_xor x (BitVec.ofNat 8 (2 ^ k)) p).symm
  rw [tableEntry_zero, byte_eq_xor_of_powers] at h
  exact h.symm

/-! What a command leaves. -/

/-- Indices outside the index space are not written by a GEN. -/
theorem State.fillTable_read_of_ge (p : Word) (s : State) {a : Nat} (h : Config.tableDepth ≤ a) :
    (s.fillTable p).table.read a = s.table.read a := by
  rw [State.fillTable, State.writeEntries_table, Memory.read_writeAll, if_neg (by simpa using h)]

theorem exec_cases {i : Instr} {s t : State} (h : exec i s = .next t) :
    (s.accepts i = true ∧ t = s.execute i) ∨ (s.accepts i = false ∧ t = s.respond (refusalOf i) 0) := by
  cases ha : s.accepts i
  · rw [exec_of_not_accepts ha] at h
    cases h
    exact .inr ⟨rfl, rfl⟩
  · rw [exec_of_accepts ha] at h
    cases h
    exact .inl ⟨rfl, rfl⟩

/-- After an accepted GEN every entry of the table is the generator's. -/
theorem exec_gen_read {s : State} (p : Word) (b : Byte) (h : s.active = false) :
    ∃ t, exec (.gen p) s = .next t ∧ t.table.read b.toNat = some (tableEntry b p) :=
  ⟨_, exec_gen_of_idle p h, State.fillTable_read p s b⟩

/-- Of the five commands only GEN writes the table and its flag; none writes what the host offers next. -/
theorem exec_keeps_table {i : Instr} {s t : State} (hi : ∀ p, i ≠ .gen p) (h : exec i s = .next t) :
    (∀ a, t.table.read a = s.table.read a) ∧ t.tvalid = s.tvalid ∧ t.events = s.events := by
  obtain ⟨_, rfl⟩ | ⟨_, rfl⟩ := exec_cases h
  · cases i with
    | gen p => exact absurd rfl (hi p)
    | rdtab _ | init _ | update _ | final _ => exact ⟨fun _ => rfl, rfl, rfl⟩
  · exact ⟨fun _ => rfl, rfl, rfl⟩

theorem exec_rdtab_keeps_engine {i : Byte} {s t : State} (h : exec (.rdtab i) s = .next t) :
    t.crc = s.crc ∧ t.active = s.active := by
  obtain ⟨_, rfl⟩ | ⟨_, rfl⟩ := exec_cases h
  · exact ⟨rfl, rfl⟩
  · exact ⟨rfl, rfl⟩

theorem exec_update_keeps_active {b : Byte} {s t : State} (h : exec (.update b) s = .next t) : t.active = s.active := by
  obtain ⟨_, rfl⟩ | ⟨_, rfl⟩ := exec_cases h
  · rfl
  · rfl

/-! The statements. -/

/-- Settles O14: a round is the round on integers, masked. -/
theorem roundOnNumbers : Obligations.RoundOnNumbers :=
  ⟨fun w p => by rw [crcRound_toNat, wideRound_of_lt _ w.isLt], by decide, by decide, by decide⟩

/-- Settles O16: eight rounds on integers agree with eight on words in the low 16 bits. -/
theorem lateMaskGivesSameEntry : Obligations.LateMaskGivesSameEntry := by
  intro b p
  have h := congrArg BitVec.toNat (ofNat_wideRounds Config.roundsPerEntry (b.toNat * 256) p)
  rw [← atHigh_eq_ofNat] at h
  exact h.symm

/-- Settles O19, from the linearity of the rounds. -/
theorem entryIsLinear : Obligations.EntryIsLinear := ⟨tableEntry_xor, tableEntry_eq_xor_of_powers⟩

/-- Settles O24, from the reads of the table that the loop of R56 fills. -/
theorem genFillsTable : Obligations.GenFillsTable :=
  ⟨fun s p ha => ⟨_, exec_gen_of_idle p ha, State.fillTable_read p s, rfl, ha, rfl, rfl, rfl⟩,
    fun _ p ha => exec_gen_of_active p ha, tableEntry_zero_polynomial, by decide, by decide, by decide⟩

/-- Settles O15: the rounds of the model are the iterate. -/
theorem entryIsEightRounds : Obligations.EntryIsEightRounds :=
  ⟨fun b p => by rw [tableEntry, crcRounds_eq_iterate, atHigh_eq_ofNat], fun _ _ => rfl, by decide, by decide⟩

/-- Settles O17, at the entry of byte 0. -/
theorem entryZeroIsZero : Obligations.EntryZeroIsZero :=
  ⟨tableEntry_zero, fun _ p h => tableEntry_zero p ▸ exec_gen_read p 0 h⟩

/-- Settles O18, at the entry of byte 1. -/
theorem entryOneIsPolynomial : Obligations.EntryOneIsPolynomial := by
  refine ⟨tableEntry_one, fun s p h => ?_⟩
  have hread := exec_gen_read p 1 h
  rwa [tableEntry_one] at hread

/-- Settles O26: RDTAB accepted, refused and after a GEN, whose table holds the entry at every index. -/
theorem rdtabReturnsEntry : Obligations.RdtabReturnsEntry := by
  refine ⟨fun s i h => ⟨s.lookup i, exec_rdtab_of_valid i h, fun u hu => ?_⟩, fun s i h => exec_rdtab_of_invalid i h,
    fun s t p i ha hgen => ?_, fun w hop harg => ?_, tableEntry_zero, by decide⟩
  · rw [State.lookup, hu, Option.getD_some]
  · rw [exec_gen_of_idle p ha] at hgen
    cases hgen
    have hlookup : State.lookup (((s.fillTable p).setTvalid true).respond .ok 0) = fun i => tableEntry i p :=
      State.lookup_eq (State.fillTable_read p s)
    rw [exec_rdtab_of_valid i rfl, hlookup]
    rfl
  · exact decode_of_illegalWord (.inr (.inl ⟨.inl hop, harg⟩))

/-- Settles O30: the frame all four share, and what RDTAB and UPDATE leave of the engine. -/
theorem engineCommandsKeepTable : Obligations.EngineCommandsKeepTable := by
  refine fun s t => ⟨fun i h => ?_, fun v h => exec_keeps_table (by simp) h, fun b h => ?_,
    fun n h => exec_keeps_table (by simp) h⟩
  · obtain ⟨htable, htvalid, hevents⟩ := exec_keeps_table (by simp) h
    exact ⟨htable, htvalid, hevents, exec_rdtab_keeps_engine h⟩
  · obtain ⟨htable, htvalid, hevents⟩ := exec_keeps_table (by simp) h
    exact ⟨htable, htvalid, hevents, exec_update_keeps_active h⟩

/-- Settles O31: a GEN that is accepted has `ACTIVE = 0` and writes the 256 entries and `TVALID`; one that is refused writes nothing. -/
theorem genTouchesOnlyTable : Obligations.GenTouchesOnlyTable := by
  intro s t p h
  obtain ⟨ha, rfl⟩ | ⟨_, rfl⟩ := exec_cases h
  · have hidle : s.active = false := by simpa [State.accepts] using ha
    exact ⟨rfl, rfl, rfl, fun _ hge => State.fillTable_read_of_ge p s hge,
      fun hactive => absurd (hidle.symm.trans hactive) Bool.false_ne_true⟩
  · exact ⟨rfl, rfl, rfl, fun _ _ => rfl, fun _ => ⟨rfl, fun _ => rfl⟩⟩

end Sys2Proof.Machine

/-! Proofs of the CRC engine family (41_crc_engine.md). First the bytes of a word; then the update of R66 beside the rounds of R54 (R81) and as a
linear function (R82); then finalisation; then runs of commands within a computation and the file procedure; then the statements. -/

namespace Sys2Proof.Machine

/-! The bytes of a word (R66). -/

theorem hiByte_atHigh (b : Byte) : hiByte (atHigh b) = b := by
  apply BitVec.eq_of_toNat_eq
  rw [hiByte_toNat, atHigh_toNat]
  omega

theorem loByte_atHigh (b : Byte) : loByte (atHigh b) = 0 := by
  apply BitVec.eq_of_toNat_eq
  rw [loByte_toNat, atHigh_toNat, Nat.mul_mod_left]
  rfl

theorem atHigh_xor_zero_append (h l : Byte) : atHigh h ^^^ ((0 : Byte) ++ l : Word) = h ++ l := by
  rw [atHigh, BitVec.xor_append]
  exact congrArg₂ (· ++ ·) BitVec.xor_zero BitVec.zero_xor

theorem tableIndex_eq_ofNat (c : Word) (b : Byte) : tableIndex c b = BitVec.ofNat 8 ((c.toNat / 256) ^^^ b.toNat) := by
  rw [tableIndex, ← hiByte_toNat, BitVec.ofNat_xor, BitVec.ofNat_toNat, BitVec.ofNat_toNat, BitVec.setWidth_eq,
    BitVec.setWidth_eq]

/-! The update of R66. -/

theorem upd_eq (c : Word) (b : Byte) (T : Byte → Word) : upd c b T = T (tableIndex c b) ^^^ atHigh (loByte c) := rfl

theorem upd_toNat (c : Word) (b : Byte) (T : Byte → Word) :
    (upd c b T).toNat = (T (tableIndex c b)).toNat ^^^ (c.toNat % 256 * 256) := by
  rw [upd_eq, BitVec.toNat_xor, atHigh_toNat, loByte_toNat]

theorem hiByte_upd (c : Word) (b : Byte) (T : Byte → Word) : hiByte (upd c b T) = hiByte (T (tableIndex c b)) ^^^ loByte c := by
  rw [upd_eq, hiByte_xor, hiByte_atHigh]

theorem loByte_upd (c : Word) (b : Byte) (T : Byte → Word) : loByte (upd c b T) = loByte (T (tableIndex c b)) := by
  rw [upd_eq, loByte_xor, loByte_atHigh]
  exact BitVec.xor_zero

theorem upd_of_entry_zero {c : Word} {b : Byte} {T : Byte → Word} (h : T (tableIndex c b) = 0) :
    upd c b T = atHigh (loByte c) := by
  rw [upd_eq, h]
  exact BitVec.zero_xor

/-- A byte equal to the high byte of the register looks up entry 0. -/
theorem tableIndex_hiByte (c : Word) : tableIndex c (hiByte c) = 0 := BitVec.xor_self

/-! The update as eight rounds (R81): the low byte is shifted up untouched, the rest is an entry of the table. -/

/-- Rounds only shift as long as no bit leaves the register. -/
theorem crcRounds_toNat_of_lt {k : Nat} {w : Word} (p : Word) (h : w.toNat * 2 ^ k < 65536) :
    (crcRounds k w p).toNat = w.toNat * 2 ^ k := by
  induction k with
  | zero => exact (Nat.mul_one w.toNat).symm
  | succ k ih =>
    rw [Nat.pow_succ, ← Nat.mul_assoc] at h ⊢
    have hk := ih (by omega)
    rw [crcRounds_succ, crcRound_toNat, hk, wideRound_of_lt _ (by omega), if_neg (by omega), Nat.mul_comm 2,
      Nat.mod_eq_of_lt h]

theorem crcRounds_zero_append (l : Byte) (p : Word) : crcRounds 8 ((0 : Byte) ++ l) p = atHigh l := by
  have hl := zero_append_toNat l
  apply BitVec.eq_of_toNat_eq
  rw [crcRounds_toNat_of_lt p (by omega), hl, atHigh_toNat]
  rfl

theorem upd_eq_crcRounds (p c : Word) (b : Byte) : upd c b (genTable p) = crcRounds 8 (c ^^^ atHigh b) p := by
  have hsplit : c ^^^ atHigh b = atHigh (tableIndex c b) ^^^ ((0 : Byte) ++ loByte c : Word) := by
    have hword : atHigh (hiByte c) ^^^ ((0 : Byte) ++ loByte c : Word) = c :=
      (atHigh_xor_zero_append (hiByte c) (loByte c)).trans (bytes_word c)
    rw [tableIndex, atHigh_xor, BitVec.xor_assoc, BitVec.xor_comm (atHigh b), ← BitVec.xor_assoc, hword]
  rw [hsplit, crcRounds_xor, crcRounds_zero_append]
  rfl

/-! The update is linear (R82). -/

theorem upd_xor (p c₁ c₂ : Word) (b₁ b₂ : Byte) :
    upd (c₁ ^^^ c₂) (b₁ ^^^ b₂) (genTable p) = upd c₁ b₁ (genTable p) ^^^ upd c₂ b₂ (genTable p) := by
  have harg : (c₁ ^^^ c₂) ^^^ atHigh (b₁ ^^^ b₂) = (c₁ ^^^ atHigh b₁) ^^^ (c₂ ^^^ atHigh b₂) := by
    rw [atHigh_xor]
    ac_rfl
  rw [upd_eq_crcRounds, harg, crcRounds_xor, ← upd_eq_crcRounds, ← upd_eq_crcRounds]

/-- The bytes cancel: what is left is the fold of the difference over as many zero bytes. -/
theorem foldBytes_xor_foldBytes (p v₁ v₂ : Word) (d : List Byte) :
    foldBytes (genTable p) v₁ d ^^^ foldBytes (genTable p) v₂ d
      = foldBytes (genTable p) (v₁ ^^^ v₂) (List.replicate d.length 0) := by
  induction d generalizing v₁ v₂ with
  | nil => rfl
  | cons b d ih =>
    have hstep : upd v₁ b (genTable p) ^^^ upd v₂ b (genTable p) = upd (v₁ ^^^ v₂) 0 (genTable p) := by
      rw [← upd_xor, BitVec.xor_self]
      rfl
    have hfold := ih (upd v₁ b (genTable p)) (upd v₂ b (genTable p))
    rwa [hstep] at hfold

theorem upd_zero_polynomial (c : Word) (b : Byte) : upd c b (genTable 0) = atHigh (loByte c) :=
  upd_of_entry_zero (tableEntry_zero_polynomial _)

theorem foldBytes_zero_polynomial (d : List Byte) : foldBytes (genTable 0) 0 d = 0 := by
  induction d with
  | nil => rfl
  | cons b d ih =>
    have hzero : upd 0 b (genTable 0) = 0 := (upd_zero_polynomial 0 b).trans (by decide)
    exact (congrArg (foldBytes (genTable 0) · d) hzero).trans ih

/-- With polynomial 0 the first byte leaves the low byte in the high half, and the second shifts it out. -/
theorem foldBytes_zero_polynomial_of_two_le (v : Word) {d : List Byte} (h : 2 ≤ d.length) :
    foldBytes (genTable 0) v d = 0 := by
  match d, h with
  | b₁ :: b₂ :: d, _ =>
    have htwo : upd (upd v b₁ (genTable 0)) b₂ (genTable 0) = 0 := by
      rw [upd_zero_polynomial, upd_zero_polynomial, loByte_atHigh]
      rfl
    exact (congrArg (foldBytes (genTable 0) · d) htwo).trans (foldBytes_zero_polynomial d)

/-! Finalisation (R67). -/

theorem fin_false (c : Word) : fin c false = c := rfl

theorem fin_true (c : Word) : fin c true = c ^^^ 0xFFFF := BitVec.xor_allOnes.symm

theorem fin_true_toNat (c : Word) : (fin c true).toNat = 65535 - c.toNat := BitVec.toNat_not

/-! Runs of commands within a computation (R75, R76). -/

theorem State.setCrc_eq_self {s : State} {c : Word} (h : s.crc = some c) : s.setCrc c = s := by
  rw [State.setCrc, ← h]

theorem foldBytes_append (T : Byte → Word) (c : Word) (d e : List Byte) :
    foldBytes T c (d ++ e) = foldBytes T (foldBytes T c d) e := List.foldl_append

theorem bytesOf_cons (i : Instr) (is : List Instr) : bytesOf (i :: is) = bytesOf [i] ++ bytesOf is := by
  cases i <;> rfl

/-- An UPDATE or a RDTAB in a computation answers OK and folds the bytes it brings, one or none. -/
theorem exec_midComputation {s : State} {T : Byte → Word} {c : Word} {i : Instr} (hs : s.tvalid = true) (ha : s.active = true)
    (hc : s.crc = some c) (hT : ∀ i : Byte, s.table.read i.toNat = some (T i)) (hi : midComputation i = true) :
    ∃ x, exec i s = .next ((s.setCrc (foldBytes T c (bytesOf [i]))).respond .ok x) := by
  cases i with
  | update b => exact ⟨0, exec_update_of_crc b ha hc hT⟩
  | rdtab j =>
    have hcrc : s.setCrc (foldBytes T c (bytesOf [.rdtab j])) = s := State.setCrc_eq_self hc
    refine ⟨s.lookup j, ?_⟩
    rw [hcrc]
    exact exec_rdtab_of_valid j hs
  | gen _ | init _ | final _ => exact absurd hi Bool.false_ne_true

/-- UPDATEs and RDTABs in a computation change the register and the responses alone. -/
theorem runSteps_midComputation {s : State} {T : Byte → Word} {c : Word} {is : List Instr} (hs : s.tvalid = true)
    (ha : s.active = true) (hc : s.crc = some c) (hT : ∀ i : Byte, s.table.read i.toNat = some (T i))
    (his : ∀ i ∈ is, midComputation i = true) :
    ∃ rs, runSteps is.length (s.facing (commandEvents is)) = .next
        { s with crc := some (foldBytes T c (bytesOf is)), events := [], responses := s.responses ++ rs }
      ∧ rs.length = is.length ∧ ∀ r ∈ rs, r.status = .ok := by
  induction is generalizing s c with
  | nil =>
    refine ⟨[], ?_, rfl, fun r hr => absurd hr List.not_mem_nil⟩
    rw [List.append_nil, bytesOf, foldBytes, List.foldl_nil, ← hc]
    rfl
  | cons i is ih =>
    obtain ⟨hi, his⟩ := List.forall_mem_cons.mp his
    obtain ⟨x, hexec⟩ := exec_midComputation (s := s.facing (commandEvents is)) hs ha hc hT hi
    obtain ⟨rs, hrun, hlen, hok⟩ :=
      ih (s := (s.setCrc (foldBytes T c (bytesOf [i]))).respond .ok x) hs ha rfl hT his
    refine ⟨⟨.ok, x⟩ :: rs, ?_, congrArg Nat.succ hlen, List.forall_mem_cons.mpr ⟨rfl, hok⟩⟩
    rw [bytesOf_cons, foldBytes_append, List.append_cons]
    exact (runSteps_succ is.length ((step_facing_command s i (commandEvents is)).trans hexec)).trans hrun

/-- INIT and FINAL with nothing between them (R73) need no entry of the table. -/
theorem runSteps_init_final {s : State} (v : Word) (f : Bool) (rest : List HostEvent) (hs : s.tvalid = true) :
    runSteps 2 (s.facing (commandEvents [.init v, .final f] ++ rest)) = .next
      { s with crc := none, active := false, events := rest, responses := s.responses ++ [⟨.ok, 0⟩, ⟨.ok, fin v f⟩] } := by
  have hinit := runSteps_init v 1 (commandEvents [.final f] ++ rest) hs
  rw [runSteps_final f 0 rest rfl rfl] at hinit
  rw [List.append_cons]
  exact hinit

/-! The chunks of the host's file procedure (R78, R79). -/

theorem chunksOf_nil (fuel n : Nat) : chunksOf fuel n [] = [] := by
  cases fuel <;> rfl

theorem chunksOf_zero (n : Nat) {d : List Byte} (h : d ≠ []) : chunksOf 0 n d = [d] :=
  if_neg (by simpa using h)

theorem chunksOf_succ (fuel n : Nat) {d : List Byte} (h : d ≠ []) :
    chunksOf (fuel + 1) n d = d.take n :: chunksOf fuel n (d.drop n) :=
  if_neg (by simpa using h)

theorem flatten_chunksOf (fuel n : Nat) (d : List Byte) : (chunksOf fuel n d).flatten = d := by
  induction fuel generalizing d with
  | zero =>
    by_cases h : d = []
    · rw [h, chunksOf_nil, List.flatten_nil]
    · rw [chunksOf_zero n h, List.flatten_singleton]
  | succ fuel ih =>
    by_cases h : d = []
    · rw [h, chunksOf_nil, List.flatten_nil]
    · rw [chunksOf_succ fuel n h, List.flatten_cons, ih, List.take_append_drop]

/-- One chunk per byte is always enough, since every chunk takes at least one. -/
theorem length_le_of_mem_chunksOf {fuel n : Nat} {d c : List Byte} (hn : 0 < n) (hd : d.length ≤ fuel)
    (hc : c ∈ chunksOf fuel n d) : c.length ≤ n := by
  induction fuel generalizing d with
  | zero =>
    rw [List.eq_nil_of_length_eq_zero (Nat.le_zero.mp hd), chunksOf_nil] at hc
    exact absurd hc List.not_mem_nil
  | succ fuel ih =>
    by_cases h : d = []
    · rw [h, chunksOf_nil] at hc
      exact absurd hc List.not_mem_nil
    · rw [chunksOf_succ fuel n h] at hc
      obtain rfl | hc := List.mem_cons.mp hc
      · exact List.length_take_le n d
      · exact ih (by rw [List.length_drop]; omega) hc

theorem chunkCommands_eq (chunks : List (List Byte)) : chunkCommands chunks = chunks.flatten.map .update := by
  rw [chunkCommands, List.flatMap_def, List.map_flatten]

theorem chunkCommands_fileChunks (d : List Byte) : chunkCommands (fileChunks d) = d.map .update := by
  rw [chunkCommands_eq, fileChunks, flatten_chunksOf]

/-- A read that fails midway leaves the computation open, with the bytes read so far folded. -/
theorem runSteps_fileCommands_failed {s : State} {T : Byte → Word} (d : List Byte) (v : Word) (f : Bool) (hs : s.tvalid = true)
    (hT : ∀ i : Byte, s.table.read i.toNat = some (T i)) :
    runSteps (d.length + 1) (s.facing (commandEvents (fileCommands (.failed d) v f)))
      = .next (((((s.setCrc v).setActive true).respond .ok 0).folded T v d).facing []) := by
  have hinit := runSteps_init v d.length (commandEvents (d.map .update)) hs
  have hupdates := runSteps_updates (s := ((s.setCrc v).setActive true).respond .ok 0) d 0 [] rfl rfl hT
  rw [List.append_nil, Nat.zero_add] at hupdates
  rw [fileCommands, chunkCommands_fileChunks]
  exact hinit.trans hupdates

/-! The statements. -/

/-- Settles O20: the lookup and the XOR on numbers, where the mask drops nothing, and byte by byte. -/
theorem updateFunctionOnNumbers : Obligations.UpdateFunctionOnNumbers := by
  refine ⟨fun c b T => ?_, fun c b T => ⟨hiByte_upd c b T, loByte_upd c b T⟩, by decide⟩
  rw [← tableIndex_eq_ofNat, ← upd_toNat, Nat.mod_eq_of_lt (upd c b T).isLt]

/-- Settles O22: the rounds of the model are the iterate. -/
theorem updateEqualsEightRounds : Obligations.UpdateEqualsEightRounds :=
  fun p c b => (upd_eq_crcRounds p c b).trans (crcRounds_eq_iterate 8 (c ^^^ atHigh b) p)

/-- Settles O23: linear as the rounds are, so that the bytes cancel from the difference of two computations. -/
theorem updateIsLinear : Obligations.UpdateIsLinear := by
  refine ⟨upd_xor, fun p v₁ v₂ u₁ u₂ d e hlen hdiff => ?_, upd_zero_polynomial,
    fun v _ h => foldBytes_zero_polynomial_of_two_le v h⟩
  rw [compute, compute, compute, compute, fin_false, fin_false, fin_false, fin_false, foldBytes_xor_foldBytes,
    foldBytes_xor_foldBytes, hlen, hdiff]

/-- Settles O43: the run of a computation, with nothing left to run after it. -/
theorem computeIsInitUpdatesFinal : Obligations.ComputeIsInitUpdatesFinal := by
  intro s T d v n rest hs hT
  have hrun := runSteps_computeCommands d v n 0 rest hs hT
  have hlen : 0 + 1 + d.length + 1 = d.length + 2 := by omega
  rwa [hlen] at hrun

/-- Settles O45, by the run of the UPDATEs and RDTABs. -/
theorem registerDependsOnlyOnBytes : Obligations.RegisterDependsOnlyOnBytes := by
  intro s T c is hs ha hc hT his
  obtain ⟨rs, hrun, hlen, hok⟩ := runSteps_midComputation hs ha hc hT his
  exact ⟨_, rs, hrun, rfl, ha, hs, rfl, rfl, hlen, hok⟩

/-- Settles O46: the chunks put together are the file, so the UPDATEs are those of its bytes. -/
theorem fileProcedureIsChunkInvariant : Obligations.FileProcedureIsChunkInvariant := by
  refine ⟨fun d => ⟨flatten_chunksOf _ _ d, fun c hc => ?_⟩, fun d v n => ?_, fun _ _ => rfl, fun s T d v n hs hT => ?_⟩
  · exact length_le_of_mem_chunksOf (n := Config.chunkBytes) (by decide) le_rfl hc
  · rw [fileCommands, chunkCommands_fileChunks, computeCommands]
  · exact ⟨_, runSteps_fileCommands_failed d v n hs hT, rfl, rfl⟩

/-- Settles O21: the complement is the XOR with all ones. -/
theorem finalisationOnNumbers : Obligations.FinalisationOnNumbers :=
  ⟨fun c => ⟨fin_false c, fin_true c, fin_true_toNat c⟩, by decide, by decide⟩

/-- Settles O27: INIT with a table and without. -/
theorem initBeginsComputation : Obligations.InitBeginsComputation :=
  ⟨fun _ v h => exec_init_of_valid v h, fun _ v h => exec_init_of_invalid v h⟩

/-- Settles O28: UPDATE in a computation and outside one, and a byte that looks up entry 0. -/
theorem updateFoldsOneByte : Obligations.UpdateFoldsOneByte := by
  refine ⟨fun s b ha => ⟨_, exec_update_of_active b ha, fun c T hc hT => ?_⟩, fun s b ha => exec_update_of_idle b ha,
    fun w hop harg => decode_of_illegalWord (.inr (.inl ⟨.inr hop, harg⟩)), fun c p => ?_, fun T hT => ?_, by decide, by decide⟩
  · rw [State.crcValue_eq hc, State.lookup_eq hT]
  · exact upd_of_entry_zero (tableIndex_hiByte c ▸ tableEntry_zero p)
  · have hindex : tableIndex 0xFFFF 0xFF = 0 := by decide
    exact (upd_of_entry_zero (hindex ▸ hT)).trans (by decide)

/-- Settles O29: FINAL in a computation and outside one, where a FINAL leaves the machine; INIT leaves it in one, with its value in `CRC`. -/
theorem finalDeliversResult : Obligations.FinalDeliversResult := by
  refine ⟨fun s n ha => ⟨_, exec_final_of_active n ha, fun c hc => ?_⟩, fun s n ha => exec_final_of_idle n ha,
    fun s t n m ha h => ?_, fun s t v n hs h => ?_, fun w hop harg => decode_of_illegalWord (.inr (.inr ⟨hop, harg⟩)),
    by decide, by decide⟩
  · rw [State.crcValue_eq hc]
  · rw [exec_final_of_active n ha] at h
    cases h
    exact exec_final_of_idle m rfl
  · rw [exec_init_of_valid v hs] at h
    cases h
    exact exec_final_of_crc n rfl rfl

/-- Settles O44, with both flags of FINAL. -/
theorem emptyInputReturnsInitial : Obligations.EmptyInputReturnsInitial := by
  intro s v rest hs
  have hinverted := runSteps_init_final v true rest hs
  rw [fin_true] at hinverted
  exact ⟨runSteps_init_final v false rest hs, hinverted⟩

end Sys2Proof.Machine

/-! Proofs of the exceptions family (60_exceptions.md). First the illegal words as exactly those the decoder refuses; then the matrix of R91 at an
illegal word and at the word of a command; then the status of every response; then the statements. -/

namespace Sys2Proof.Machine

/-! The decoder refuses exactly the illegal words (R84). -/

/-- A legal `op` is refused for a reserved field that is not zero. -/
theorem whenZero_eq_illegal {n : Nat} {x : BitVec n} {w : CmdWord} {i : Instr} {why : Illegal}
    (h : whenZero (x == 0) w i = .illegal why) : x.toNat ≠ 0 := by
  intro hx
  have hzero : x = 0 := BitVec.eq_of_toNat_eq hx
  rw [hzero, beq_self_eq_true, whenZero, if_pos rfl] at h
  cases h

theorem opNumber_of_opField {w : CmdWord} {op : BitVec 4} (h : opField w = op) : opNumber w = op.toNat := by
  rw [← h, opField_toNat, opNumber]

/-- The reserved bits of RDTAB and UPDATE as a number (R48). -/
theorem argNumber_div_256 (w : CmdWord) : argNumber w / 256 = (argHigh w).toNat := by
  rw [argHigh_toNat, argNumber]
  omega

/-- The reserved bits of FINAL as a number (R48). -/
theorem argNumber_div_2 (w : CmdWord) : argNumber w / 2 = (argAboveFlag w).toNat := by
  rw [argAboveFlag_toNat, argNumber]
  omega

/-- A number of the `op` field that is none of the five commands' (R47). -/
theorem opNumber_illegal_of_opField_ne {w : CmdWord} (h₁ : opField w ≠ 1) (h₂ : opField w ≠ 2) (h₃ : opField w ≠ 3)
    (h₄ : opField w ≠ 4) (h₅ : opField w ≠ 5) : opNumber w = 0 ∨ 6 ≤ opNumber w := by
  rw [opNumber_of_opField rfl]
  bv_omega

theorem illegalWord_of_decode {w : CmdWord} {why : Illegal} (h : decode w = .illegal why) : IllegalWord w := by
  unfold decode at h
  split at h
  next => cases h
  split at h
  next hop =>
    exact .inr (.inl ⟨.inl (opNumber_of_opField hop), argNumber_div_256 w ▸ whenZero_eq_illegal h⟩)
  split at h
  next => cases h
  split at h
  next hop =>
    exact .inr (.inl ⟨.inr (opNumber_of_opField hop), argNumber_div_256 w ▸ whenZero_eq_illegal h⟩)
  split at h
  next hop =>
    exact .inr (.inr ⟨opNumber_of_opField hop, argNumber_div_2 w ▸ whenZero_eq_illegal h⟩)
  next h₁ h₂ h₃ h₄ h₅ => exact .inl (opNumber_illegal_of_opField_ne h₁ h₂ h₃ h₄ h₅)

theorem decode_illegal_iff (w : CmdWord) : (∃ why, decode w = .illegal why) ↔ IllegalWord w :=
  ⟨fun ⟨_, h⟩ => illegalWord_of_decode h, decode_of_illegalWord⟩

/-- Every word is illegal or the word of a command. -/
theorem illegalWord_or_encode (w : CmdWord) : IllegalWord w ∨ ∃ i, w = encode i := by
  cases hd : decode w with
  | instr i => exact .inr ⟨i, (encode_of_decode hd).symm⟩
  | illegal why => exact .inl (illegalWord_of_decode hd)

/-! The matrix of R91. -/

theorem matrixStatus_of_illegalWord {w : CmdWord} (tvalid active : Bool) (h : IllegalWord w) :
    matrixStatus w tvalid active = .errIllegal := by
  obtain hop | ⟨hop | hop, harg⟩ | ⟨hop, harg⟩ := h
  · unfold matrixStatus
    split
    case h_6 => rfl
    all_goals omega
  · simp only [matrixStatus, hop, if_pos harg]
  · simp only [matrixStatus, hop, if_pos harg]
  · simp only [matrixStatus, hop, if_pos harg]

theorem opNumber_encode (i : Instr) : opNumber (encode i) = (opcodeOf i).toNat := opNumber_of_opField (opField_encode i)

/-- The row of a command: OK when its precondition holds, else its one refusal (R85 to R87). -/
theorem matrixStatus_encode (i : Instr) (s : State) :
    matrixStatus (encode i) s.tvalid s.active = if s.accepts i then .ok else refusalOf i := by
  have hlegal := not_illegalWord_encode i
  have hop := opNumber_encode i
  cases i with
  | gen p => cases ha : s.active <;> simp [matrixStatus, hop, opcodeOf, State.accepts, refusalOf, ha]
  | init v =>
    simp only [matrixStatus, hop, opcodeOf]
    rfl
  | rdtab i =>
    have harg : ¬ argNumber (encode (.rdtab i)) / 256 ≠ 0 := fun h => hlegal (.inr (.inl ⟨.inl hop, h⟩))
    simp only [matrixStatus, hop, opcodeOf, if_neg harg]
    rfl
  | update b =>
    have harg : ¬ argNumber (encode (.update b)) / 256 ≠ 0 := fun h => hlegal (.inr (.inl ⟨.inr hop, h⟩))
    simp only [matrixStatus, hop, opcodeOf, if_neg harg]
    rfl
  | final n =>
    have harg : ¬ argNumber (encode (.final n)) / 2 ≠ 0 := fun h => hlegal (.inr (.inr ⟨hop, h⟩))
    simp only [matrixStatus, hop, opcodeOf, if_neg harg]
    rfl

theorem refusalOf_ne_errIllegal (i : Instr) : refusalOf i ≠ .errIllegal := by
  cases i <;> simp [refusalOf]

/-- ERR_ILLEGAL stands in the row of the illegal words alone, whatever the flags. -/
theorem matrixStatus_eq_errIllegal_iff (w : CmdWord) (s : State) :
    matrixStatus w s.tvalid s.active = .errIllegal ↔ IllegalWord w := by
  refine ⟨fun h => ?_, matrixStatus_of_illegalWord _ _⟩
  obtain hw | ⟨i, rfl⟩ := illegalWord_or_encode w
  · exact hw
  · rw [matrixStatus_encode] at h
    split at h
    next => cases h
    next => exact absurd h (refusalOf_ne_errIllegal i)

/-! The response to a word. -/

theorem acceptWord_status (w : CmdWord) (s : State) :
    ∃ t d, acceptWord w s = .next t ∧ t.responses = s.responses ++ [⟨matrixStatus w s.tvalid s.active, d⟩] := by
  obtain hw | ⟨i, rfl⟩ := illegalWord_or_encode w
  · obtain ⟨why, hd⟩ := decode_of_illegalWord hw
    rw [matrixStatus_of_illegalWord _ _ hw]
    exact ⟨_, 0, acceptWord_of_illegal s hd, rfl⟩
  · rw [acceptWord_of_instr s (decode_encode i), matrixStatus_encode]
    cases ha : s.accepts i
    · exact ⟨_, 0, exec_of_not_accepts ha, rfl⟩
    · obtain ⟨d, hresp, _⟩ := State.execute_responses i s
      exact ⟨_, d, exec_of_accepts ha, hresp⟩

theorem step_status {s : State} {w : CmdWord} {rest : List HostEvent} (h : s.events = .command w :: rest) :
    ∃ t d, step s = .next t ∧ t.responses = s.responses ++ [⟨matrixStatus w s.tvalid s.active, d⟩] := by
  obtain ⟨t, d, hacc, hresp⟩ := acceptWord_status w { s with events := rest }
  exact ⟨t, d, (step_of_command h).trans hacc, hresp⟩

/-! The statements. -/

/-- Settles O5: the status is the matrix's, which is ERR_ILLEGAL in the row of the illegal words alone. -/
theorem illegalWordsAreExactlyThese : Obligations.IllegalWordsAreExactlyThese := by
  intro s w rest hevents
  obtain ⟨t, d, hstep, hresp⟩ := step_status hevents
  exact ⟨t, _, hstep, hresp, matrixStatus_eq_errIllegal_iff w s, decode_illegal_iff w⟩

/-- Settles O32: the matrix at an illegal word, and at the word of a command that is accepted or refused. -/
theorem statusFollowsErrorMatrix : Obligations.StatusFollowsErrorMatrix := fun _ _ _ => step_status

/-- Settles O33: of the two ways a word is answered, the refusal is a response and nothing else, and the other answers OK. -/
theorem refusedCommandWritesNoState : Obligations.RefusedCommandWritesNoState := by
  intro s t w rest hevents hstep
  obtain ⟨he, _⟩ | ⟨_, he, _⟩ | ⟨_, _, e, he, _, rfl⟩ | ⟨i, _, he, _, rfl⟩ := step_cases hstep
    <;> rw [hevents] at he <;> cases he
  · exact ⟨⟨e, 0⟩, rfl, fun _ => ⟨rfl, rfl⟩⟩
  · obtain ⟨d, hresp, _⟩ := State.execute_responses i { s with events := rest }
    exact ⟨⟨.ok, d⟩, hresp, fun h => absurd rfl h⟩

end Sys2Proof.Machine

/-! Proofs of the reset family (70_reset_and_hazards.md). First the run of a list of commands, answered OK throughout exactly when the flags accept
each in its turn; then the grammar of R105 against the flags, in both directions; then the answer to a command that is refused; then the statements. -/

namespace Sys2Proof.Machine

/-! The run of a list of commands. -/

/-- The flags accept every command of the list in its turn. -/
def State.AcceptsAll : State → List Instr → Prop
  | _, [] => True
  | s, i :: is => s.accepts i = true ∧ (s.execute i).AcceptsAll is

/-- A command offered ahead of other events is answered OK exactly when the flags accept it. -/
theorem step_facing_command_answer (s : State) (i : Instr) (es : List HostEvent) :
    ∃ t r, step (s.facing (.command (encode i) :: es)) = .next (t.facing es) ∧ t.responses = s.responses ++ [r]
      ∧ (r.status = .ok ↔ s.accepts i = true) ∧ (s.accepts i = true → t = s.execute i) := by
  have hflags : (s.facing es).accepts i = s.accepts i := s.accepts_withEvents es i
  rw [step_facing_command]
  cases ha : s.accepts i <;> rw [ha] at hflags
  · exact ⟨s.respond (refusalOf i) 0, _, exec_of_not_accepts hflags, rfl, by simp [refusalOf_ne_ok], by simp⟩
  · obtain ⟨d, hresp, _⟩ := State.execute_responses i s
    have hexec := (exec_of_accepts hflags).trans (congrArg Host.Outcome.next (State.execute_withEvents i s es))
    exact ⟨s.execute i, _, hexec, hresp, by simp, fun _ => rfl⟩

theorem runSteps_commands (s : State) (is : List Instr) :
    ∃ t rs, runSteps is.length (s.facing (commandEvents is)) = .next t ∧ t.responses = s.responses ++ rs
      ∧ ((∀ r ∈ rs, r.status = .ok) ↔ s.AcceptsAll is) := by
  induction is generalizing s with
  | nil => exact ⟨s.facing [], [], rfl, (List.append_nil _).symm, by simp [State.AcceptsAll]⟩
  | cons i is ih =>
    obtain ⟨u, r, hstep, hresp, hok, hu⟩ := step_facing_command_answer s i (commandEvents is)
    obtain ⟨t, rs, hrun, hresps, hoks⟩ := ih u
    refine ⟨t, r :: rs, (runSteps_succ is.length hstep).trans hrun, ?_, ?_⟩
    · rw [hresps, hresp, List.append_assoc, List.singleton_append]
    · rw [List.forall_mem_cons, hok, hoks]
      exact and_congr_right fun ha => by rw [hu ha]

/-! Every session is accepted: `ACTIVE` is 1 within a computation and 0 outside one. -/

theorem ComputationRest.acceptsAll {c is : List Instr} (hc : ComputationRest c)
    (his : ∀ s : State, s.tvalid = true → s.active = false → s.AcceptsAll is) (s : State) (hv : s.tvalid = true)
    (ha : s.active = true) : s.AcceptsAll (c ++ is) := by
  induction hc generalizing s with
  | final n => exact ⟨ha, his _ hv rfl⟩
  | init v _ ih => exact ⟨hv, ih _ hv rfl⟩
  | update b _ ih => exact ⟨ha, ih _ hv ha⟩
  | rdtab i _ ih => exact ⟨hv, ih _ hv ha⟩

theorem State.accepts_gen {s : State} (p : Word) (ha : s.active = false) : s.accepts (.gen p) = true := by
  simp [State.accepts, ha]

theorem SessionRest.acceptsAll {is : List Instr} (h : SessionRest is) (s : State) (hv : s.tvalid = true)
    (ha : s.active = false) : s.AcceptsAll is := by
  induction h generalizing s with
  | nil => trivial
  | gen p _ ih => exact ⟨State.accepts_gen p ha, ih _ rfl ha⟩
  | rdtab i _ ih => exact ⟨hv, ih _ hv ha⟩
  | computation v hc _ ih => exact ⟨hv, hc.acceptsAll ih _ hv rfl⟩

theorem IsSession.acceptsAll {is : List Instr} (h : IsSession is) {s : State} (ha : s.active = false) :
    s.AcceptsAll is := by
  obtain ⟨p, rest, rfl, hrest⟩ := h
  exact ⟨State.accepts_gen p ha, hrest.acceptsAll _ rfl ha⟩

/-! Whatever is accepted throughout is the beginning of a session. -/

/-- What may follow in a session after its first GEN, by `ACTIVE`: within a computation its end comes first. -/
def SessionRestFrom : (active : Bool) → List Instr → Prop
  | false, is => SessionRest is
  | true, is => ∃ c rest, is = c ++ rest ∧ ComputationRest c ∧ SessionRest rest

/-- A computation in progress can be ended at once by a FINAL. -/
theorem exists_sessionRestFrom (active : Bool) : ∃ is, SessionRestFrom active is := by
  cases active with
  | false => exact ⟨[], .nil⟩
  | true => exact ⟨[.final false], [.final false], [], rfl, .final false, .nil⟩

theorem State.execute_tvalid {s : State} (i : Instr) (hv : s.tvalid = true) : (s.execute i).tvalid = true := by
  cases i with
  | gen p => rfl
  | rdtab _ | init _ | update _ | final _ => exact hv

/-- With a table, a command that the flags accept stands in the grammar before whatever may follow it. -/
theorem SessionRestFrom.cons {s : State} {i : Instr} {is : List Instr} (h : s.accepts i = true)
    (hrest : SessionRestFrom (s.execute i).active is) : SessionRestFrom s.active (i :: is) := by
  cases i with
  | gen p =>
    have ha : s.active = false := by simpa [State.accepts] using h
    rw [show (s.execute (.gen p)).active = false from ha] at hrest
    rw [ha]
    exact .gen p hrest
  | rdtab i =>
    rw [show (s.execute (.rdtab i)).active = s.active from rfl] at hrest
    cases ha : s.active <;> rw [ha] at hrest
    · exact .rdtab i hrest
    · obtain ⟨c, rest, rfl, hc, hr⟩ := hrest
      exact ⟨.rdtab i :: c, rest, rfl, .rdtab i hc, hr⟩
  | init v =>
    obtain ⟨c, rest, rfl, hc, hr⟩ := hrest
    cases s.active
    · exact .computation v hc hr
    · exact ⟨.init v :: c, rest, rfl, .init v hc, hr⟩
  | update b =>
    have ha : s.active = true := h
    rw [show (s.execute (.update b)).active = true from ha] at hrest
    obtain ⟨c, rest, rfl, hc, hr⟩ := hrest
    rw [ha]
    exact ⟨.update b :: c, rest, rfl, .update b hc, hr⟩
  | final n =>
    have ha : s.active = true := h
    rw [ha]
    exact ⟨[.final n], is, rfl, .final n, hrest⟩

theorem State.AcceptsAll.exists_sessionRestFrom {s : State} {is : List Instr} (h : s.AcceptsAll is) :
    ∃ tail, SessionRestFrom s.active (is ++ tail) := by
  induction is generalizing s with
  | nil => exact Machine.exists_sessionRestFrom s.active
  | cons i is ih =>
    obtain ⟨hi, his⟩ := h
    obtain ⟨tail, htail⟩ := ih his
    exact ⟨tail, .cons hi htail⟩

/-- With both flags 0 only a GEN is accepted, and it opens the session. -/
theorem State.AcceptsAll.exists_isSession {s : State} {is : List Instr} (h : s.AcceptsAll is) (hne : is ≠ [])
    (hv : s.tvalid = false) (ha : s.active = false) : ∃ tail, IsSession (is ++ tail) := by
  obtain _ | ⟨i, is⟩ := is
  · exact absurd rfl hne
  obtain ⟨hi, his⟩ := h
  cases i with
  | gen p =>
    obtain ⟨tail, htail⟩ := his.exists_sessionRestFrom
    rw [show (s.execute (.gen p)).active = false from ha] at htail
    exact ⟨tail, p, is ++ tail, rfl, htail⟩
  | rdtab _ | init _ => exact absurd (hv.symm.trans hi) Bool.false_ne_true
  | update _ | final _ => exact absurd (ha.symm.trans hi) Bool.false_ne_true

/-! The answer to a command that is refused (R88). -/

theorem step_of_not_accepts {s : State} {i : Instr} {rest : List HostEvent} (h : s.accepts i = false)
    (he : s.events = .command (encode i) :: rest) : step s = .next (s.answered rest ⟨refusalOf i, 0⟩) :=
  ((step_of_command he).trans (acceptWord_of_instr _ (decode_encode i))).trans
    (exec_of_not_accepts ((s.accepts_withEvents rest i).trans h))

/-! The statements. -/

/-- Settles O47: a run answers OK throughout exactly when the flags accept its commands in turn, as they do along the grammar and only there. -/
theorem sessionsAreTheOkSequences : Obligations.SessionsAreTheOkSequences := by
  constructor
  · intro s is _ ha his
    obtain ⟨t, rs, hrun, hresp, hok⟩ := runSteps_commands s is
    exact ⟨t, rs, hrun, hresp, hok.mpr (his.acceptsAll ha)⟩
  · intro s t is rs hv ha hne hrun hresp hok
    obtain ⟨t', rs', hrun', hresp', hok'⟩ := runSteps_commands s is
    rw [hrun] at hrun'
    cases hrun'
    have hsame : rs = rs' := List.append_cancel_left (hresp.symm.trans hresp')
    exact (hok'.mp (hsame ▸ hok)).exists_isSession hne hv ha

/-- Settles O2: the reset of a step and that of a cycle write the same values; a command that changes `TVALID` sets it. -/
theorem resetEventGivesResetState : Obligations.ResetEventGivesResetState := by
  refine ⟨fun s rest he => step_of_reset he, fun s rest he => ?_, fun s t w rest he hstep hv => ?_, fun c i hr => ?_⟩
  · rw [runSteps_succ 1 (step_of_reset he), runSteps_succ 0 (step_of_reset rfl), step_of_reset rfl]
    rfl
  · obtain hsame | ⟨_, _, hreset⟩ | ⟨hset, _⟩ := step_tvalid_cases hstep
    · exact hsame.trans hv
    · simp [he] at hreset
    · exact hset
  · rw [PortState.cycle_of_rst hr]
    exact ⟨rfl, rfl⟩

/-- Settles O36: with both flags 0 the precondition of GEN alone holds. -/
theorem onlyGenIsUsefulAfterReset : Obligations.OnlyGenIsUsefulAfterReset := by
  intro s rest hv ha
  refine ⟨fun p he => ?_, fun i => step_of_not_accepts hv, fun v => step_of_not_accepts hv,
    fun b => step_of_not_accepts ha, fun n => step_of_not_accepts ha, fun w hw he => illegalWordChangesNothing s w rest he hw⟩
  have hstep := (step_of_command he).trans (acceptWord_of_instr _ (decode_encode (.gen p)))
  exact ⟨_, hstep.trans (exec_gen_of_idle p ha), rfl, rfl⟩

/-- Settles O51: a reset cycle leaves the block idle in the reset state, and an idle block is ready. -/
theorem portResetAbandonsCommand : Obligations.PortResetAbandonsCommand := by
  intro c i hr
  rw [PortState.cycle_of_rst hr]
  exact ⟨rfl, fun j hj => by rw [PortState.cycle_idle hj rfl]⟩

end Sys2Proof.Machine
